-- ==== Sys2Proof/Word.lean ====
section
/-! DEFINITION. The machine word: the 16-bit unsigned unit of storage and addressing (spec/00_scope.md R4, R6, R9). -/

namespace Sys2Proof

/-- A Word: 16 bits, unsigned, bit 0 the least significant (R4 `WORD_BITS`, R6). -/
abbrev Word := BitVec 16

/-- How many words there are, which is also the number of memory words (R4 `MEM_WORDS`). -/
abbrev wordCount : Nat := 65536

end Sys2Proof
end

