-- ==== Sys2Proof/Config.lean ====
section
/-! DEFINITION. The parameters the spec names and does not fix for the machine (spec/00_scope.md R5): the halt sentinel
and the reset values, carried as plain data so that every statement quantifies over them, and the overflow value of DIV,
a constant without a body. -/

namespace Sys2Proof

/-- The parameter a run never changes: the value of the reserved word that halts the machine (R5 `HALT_SENTINEL`, open: D1).
A state carries it as plain data, so a statement about every state holds for every value of it (log entry 3). -/
structure Config where
  haltSentinel : Word
deriving DecidableEq, Repr

/-- The reset values the source does not give (R5 `RESET_X`, `RESET_SP`, `RESET_OV`, `RESET_SKIP`; decided 0 and false: D4,
log entry 7). -/
structure ResetParams where
  x    : Vector Word 8
  sp   : Word
  ov   : Word
  skip : Bool
deriving DecidableEq, Repr

/-- What DIV writes to `ov`, as a function of `dst` and `src` alone (R5 and R105 `OV_DIV`, open: D5, log entry 5).
A free value: no proof can see which function it is. -/
opaque Config.ovDiv (dst src : Word) : Word

end Sys2Proof
end

