-- ==== Sys2Proof/Machine/Flags.lean ====
section
/-! DEFINITION. Narrowing an exact integer to a Word and the value of the overflow register (spec/00_scope.md R6,
spec/41_move_arith.md R102 to R105, spec/42_shift_logic.md R121, R122). Results are computed over the unbounded integers and
narrowed at the end. -/

namespace Sys2Proof.Machine

/-- `trunc16(t) = t mod 65536` (R6). -/
def trunc16 (t : Int) : Word := BitVec.ofInt 16 t

/-- `hi16(t) = floor(t / 65536) mod 65536` (R6, D18): division by a positive number rounds down. -/
def hi16 (t : Int) : Word := BitVec.ofInt 16 (t / 65536)

/-- The exact sum of R102. -/
def trueSum (dst src : Word) : Int := dst.toNat + src.toNat

/-- The exact difference of R103, negative on a borrow. -/
def trueDifference (dst src : Word) : Int := dst.toNat - src.toNat

/-- The exact product of R104. -/
def trueProduct (dst src : Word) : Int := dst.toNat * src.toNat

/-- The exact left shift of R121, by the whole value of `src` (D7). -/
def trueShift (dst src : Word) : Int := dst.toNat * 2 ^ src.toNat

/-- `OV_DIV(dst, src)` of R105: the free value `Config.ovDiv` (D5, log entry 5). -/
def ovDiv (dst src : Word) : Word := Config.ovDiv dst src

/-- `OV_SHR(dst, src)` of R122. DESIGN CHOICE of the spec (D6, log entry 6): the constant 0. -/
def ovShr (_dst _src : Word) : Word := 0

/-- What an instruction computes from its operand values: the result, and the value for `ov` if it sets it (R93). -/
structure AluResult where
  result : Word
  ov     : Option Word
deriving DecidableEq, Repr

/-- The result of an instruction that records the overflow of the exact value `t` (R107). -/
def AluResult.exact (t : Int) : AluResult := { result := trunc16 t, ov := some (hi16 t) }

/-- The result of an instruction that leaves `ov` as it is (R18). -/
def AluResult.plain (r : Word) : AluResult := { result := r, ov := none }

end Sys2Proof.Machine
end

