-- ==== Sys2Proof/Machine/Params.lean ====
section
/-! DEFINITION. The instance of the parameters of spec/00_scope.md R5 that the state after reset carries. No statement
rests on these values. -/

namespace Sys2Proof.Machine

/-- DESIGN CHOICE (log entry 3): the source states no sentinel value; this is the EXAMPLE instance of D1, a reserved extended
word, so it costs no defined instruction. -/
def resetConfig : Config := { haltSentinel := 0xFFF0 }

/-- DESIGN CHOICE (log entry 7): R27 decides 0 for the registers, `sp` and `ov` and false for `skip`, none of which the source
gives (D4). -/
def resetParams : ResetParams := { x := Vector.replicate 8 0, sp := 0, ov := 0, skip := false }

end Sys2Proof.Machine
end

