-- ==== Sys2Proof/Machine/State.lean ====
section
/-! DEFINITION. The state of one machine, as spec/10_state.md gives it, and its value after reset (R26, R27, R180). -/

namespace Sys2Proof.Machine

/-- The two fault kinds of R160. A step that raises one answers the next state, whose run state records it (R163);
`Outcome.fault` is therefore never answered, and reading or writing anything never stops the machine by other means. -/
inductive Fault where
  /-- Raised by the step that fetches a reserved extended word (R161). Safe: the machine stops, as R163 says. -/
  | illegalOpcode
  /-- Raised by a writing instruction, not skipped, whose destination is a short literal (R162). Safe: the machine stops, as
  R163 says. -/
  | illegalWriteTarget
deriving DecidableEq, Repr

/-- The model's own stops. -/
inductive Refusal where
  /-- Raised by an arm of `exec` whose instruction has no meaning yet; no arm is such. Safe: nothing follows from it. -/
  | notModelled (mnemonic : String)
deriving DecidableEq, Repr

/-- The run state of R22. -/
inductive Run where
  | running
  | halted
  | faulted (kind : Fault)
deriving DecidableEq, Repr

/-- The memory image as the list of its nonzero words by address. A cell is a whole word: the machine has no byte and no byte
order (R30, log entry 1). Its canonical form is `Memory.wf`. -/
abbrev Memory := List (Nat × Word)

/-- Every element of the table of spec/10_state.md section 1, and the parameter `cfg`, the model's own field. -/
structure State where
  /-- The general registers `x[0..7]` (R10). -/
  x    : Vector Word 8
  /-- The program counter (R13). -/
  pc   : Word
  /-- The stack pointer (R17). -/
  sp   : Word
  /-- The overflow register (R18). -/
  ov   : Word
  /-- The pending-skip flag (R19). -/
  skip : Bool
  /-- The run state (R22). -/
  run  : Run
  /-- The memory image (R24); an address that is not listed holds 0 (R26). -/
  mem  : Memory
  /-- The parameters a run never changes (R5, log entry 3); the model's own field. -/
  cfg  : Config
deriving DecidableEq, Repr

/-- The state after a reset with no program loaded, for any instance of the parameters (R180): `pc` is 0, the machine runs and
all memory is 0 (R26); the registers, `sp`, `ov` and `skip` hold the values of R5's reset parameters (R27). -/
def State.resetWith (cfg : Config) (p : ResetParams) : State :=
  { x := p.x, pc := 0, sp := p.sp, ov := p.ov, skip := p.skip, run := .running, mem := [], cfg := cfg }

/-- The machine right after reset (R26, R27). -/
def State.reset : State := State.resetWith resetConfig resetParams

end Sys2Proof.Machine
end

