-- ==== Sys2Proof/Machine/Ops.lean ====
section
/-! DEFINITION. The named operations over memory, registers and the run state, and the raising of a fault
(spec/00_scope.md R8, spec/20_memory.md, spec/60_exceptions.md R163). -/

namespace Sys2Proof.Machine

/-! ### The memory image (R8, R24, R36) -/

/-- What an unlisted address reads as: the reset contents of memory (R26). -/
def Memory.unlisted : Word := 0

/-- The word at an address: the listed value, or what an unlisted address reads as. -/
def Memory.read : Memory → Nat → Word
  | [], _ => Memory.unlisted
  | (a, v) :: m, k => if a = k then v else Memory.read m k

/-- Store a word, keeping the canonical form: a word equal to what an unlisted address reads as is not listed. -/
def Memory.write : Memory → Nat → Word → Memory
  | [], k, v => if v = Memory.unlisted then [] else [(k, v)]
  | (a, u) :: m, k, v =>
    if k < a then (if v = Memory.unlisted then (a, u) :: m else (k, v) :: (a, u) :: m)
    else if k = a then (if v = Memory.unlisted then m else (k, v) :: m)
    else (a, u) :: Memory.write m k v

/-- Every listed address is at least `lo` and below 65536, addresses strictly rise, and no listed word is the unlisted one. -/
def Memory.wfFrom : Nat → Memory → Bool
  | _, [] => true
  | lo, (a, v) :: m =>
    decide (lo ≤ a) && decide (a < wordCount) && decide (v ≠ Memory.unlisted) && Memory.wfFrom (a + 1) m

/-- The canonical form of a memory image: equal images are equal lists. -/
def Memory.wf (m : Memory) : Bool := Memory.wfFrom 0 m

/-- The image that holds the words of a stream from address `k` upward and 0 elsewhere (R180). -/
def Memory.ofWords : Nat → List Word → Memory
  | _, [] => []
  | k, w :: ws => if w = Memory.unlisted then Memory.ofWords (k + 1) ws else (k, w) :: Memory.ofWords (k + 1) ws

/-- `MemRead(addr, 1)` (R8). -/
def State.readMem (s : State) (a : Word) : Word := Memory.read s.mem a.toNat

/-- `MemWrite(addr, 1, v)` (R8). -/
def State.writeMem (s : State) (a v : Word) : State := { s with mem := Memory.write s.mem a.toNat v }

/-! ### Registers (R10, R13, R17, R18) -/

/-- `x[n]`. -/
def State.readReg (s : State) (n : Fin 8) : Word := s.x[n.val]

/-- `x[n] <- v`. -/
def State.writeReg (s : State) (n : Fin 8) (v : Word) : State := { s with x := s.x.set n v }

/-- `pc <- v`. -/
def State.setPc (s : State) (v : Word) : State := { s with pc := v }

/-- `sp <- v`. -/
def State.setSp (s : State) (v : Word) : State := { s with sp := v }

/-- `ov <- v`. -/
def State.setOv (s : State) (v : Word) : State := { s with ov := v }

/-- `skip <- v`. -/
def State.setSkip (s : State) (v : Bool) : State := { s with skip := v }

/-- `run <- v`. -/
def State.setRun (s : State) (v : Run) : State := { s with run := v }

/-- `pc <- (pc + 1) mod 65536` (R14, R15). -/
def State.advancePc (s : State) : State := s.setPc (s.pc + 1)

/-! ### Stopping (R163, R166) -/

/-- `raise Kind`: the one way a fault is taken. The run state becomes FAULTED(Kind), what the step did before stays, and the
caller performs nothing after it (R163). There is no return from a fault: only a reset leaves FAULTED (R164, R182). -/
def State.raise (s : State) (kind : Fault) : State := s.setRun (.faulted kind)

/-- The halt: nothing but the run state changes (R73, R166). -/
def State.halt (s : State) : State := s.setRun .halted

end Sys2Proof.Machine
end

