-- ==== Sys2Proof/Syntax.lean ====
section
/-! DEFINITION. Operands and instructions as syntax (spec/30_encoding.md R50 to R56): what the first word of an instruction
says. The next words an operand consumes are memory words that the resolver reads (R72), so they are no part of `Instr`
(log entry 20); `InstrWords` pairs an instruction with them. -/

namespace Sys2Proof

/-- The twelve operand forms of the table of R52, in its order. -/
inductive Operand where
  /-- 0x00..0x07: register n directly. -/
  | reg (n : Fin 8)
  /-- 0x08..0x0F: memory at [register n]. -/
  | atReg (n : Fin 8)
  /-- 0x10..0x17: memory at [next word + register n]. -/
  | atNextPlusReg (n : Fin 8)
  /-- 0x18: memory at [SP], then SP += 1. -/
  | pop
  /-- 0x19: memory at [SP]. -/
  | peek
  /-- 0x1A: SP -= 1, then memory at [SP]. -/
  | push
  /-- 0x1B: SP itself. -/
  | sp
  /-- 0x1C: PC itself. -/
  | pc
  /-- 0x1D: OV itself. -/
  | ov
  /-- 0x1E: memory at [next word]. -/
  | atNext
  /-- 0x1F: the next word, used as an immediate value. -/
  | next
  /-- 0x20..0x3F: the short literal n. -/
  | lit (n : Fin 32)
deriving DecidableEq, Repr

/-- Whether the operand consumes a next word: exactly the codes 0x10..0x17, 0x1E and 0x1F (R54). -/
def Operand.consumesWord : Operand → Bool
  | .atNextPlusReg _ | .atNext | .next => true
  | .reg _ | .atReg _ | .pop | .peek | .push | .sp | .pc | .ov | .lit _ => false

/-- Whether the operand is a short literal, the one read-only form (R52, R90). -/
def Operand.isLit : Operand → Bool
  | .lit _ => true
  | .reg _ | .atReg _ | .atNextPlusReg _ | .pop | .peek | .push | .sp | .pc | .ov | .atNext | .next => false

/-- How many words the operand consumes: 0 or 1. -/
def Operand.extraWords (o : Operand) : Nat := if o.consumesWord then 1 else 0

/-- The instructions, one constructor per row of the opcode table (R55, R56): `a` is the destination operand, `b` the source. -/
inductive Instr where
  | set (a b : Operand)
  | add (a b : Operand)
  | sub (a b : Operand)
  | mul (a b : Operand)
  | div (a b : Operand)
  | mod (a b : Operand)
  | shl (a b : Operand)
  | shr (a b : Operand)
  | and (a b : Operand)
  | bor (a b : Operand)
  | xor (a b : Operand)
  | ife (a b : Operand)
  | ifn (a b : Operand)
  | ifg (a b : Operand)
  | ifb (a b : Operand)
  | jsr (b : Operand)
deriving DecidableEq, Repr

/-- The 4-bit opcode of R55 and R56. -/
def Instr.opcode : Instr → BitVec 4
  | .set _ _ => 0x1 | .add _ _ => 0x2 | .sub _ _ => 0x3 | .mul _ _ => 0x4
  | .div _ _ => 0x5 | .mod _ _ => 0x6 | .shl _ _ => 0x7 | .shr _ _ => 0x8
  | .and _ _ => 0x9 | .bor _ _ => 0xA | .xor _ _ => 0xB | .ife _ _ => 0xC
  | .ifn _ _ => 0xD | .ifg _ _ => 0xE | .ifb _ _ => 0xF | .jsr _ => 0x0

/-- The destination operand of a binary-form instruction; JSR has none (R150). -/
def Instr.operandA : Instr → Option Operand
  | .set a _ | .add a _ | .sub a _ | .mul a _ | .div a _ | .mod a _ | .shl a _ | .shr a _
  | .and a _ | .bor a _ | .xor a _ | .ife a _ | .ifn a _ | .ifg a _ | .ifb a _ => some a
  | .jsr _ => none

/-- The `b` operand, which every instruction has. -/
def Instr.operandB : Instr → Operand
  | .set _ b | .add _ b | .sub _ b | .mul _ b | .div _ b | .mod _ b | .shl _ b | .shr _ b
  | .and _ b | .bor _ b | .xor _ b | .ife _ b | .ifn _ b | .ifg _ b | .ifb _ b | .jsr b => b

/-- How many next words the instruction consumes (R54): for JSR only the `b` code counts. -/
def Instr.extraWords (i : Instr) : Nat :=
  (i.operandA.map Operand.extraWords).getD 0 + i.operandB.extraWords

/-- The length in words, 1 to 3 (R54). -/
def Instr.length (i : Instr) : Nat := 1 + i.extraWords

/-- An instruction together with the next words it consumes, in a-then-b order (R31, R64). -/
structure InstrWords where
  instr : Instr
  extra : List Word
deriving DecidableEq, Repr

end Sys2Proof
end

