-- ==== Sys2Proof/Machine/Operands.lean ====
section
/-! DEFINITION. The operand resolver, reading and writing a location, and the phases every instruction shares
(spec/40_step_and_operands.md R76 to R94). -/

namespace Sys2Proof.Machine

/-! ### Locations and the resolver (R78 to R90) -/

/-- A location: the storage class and the index (R78). -/
inductive Loc where
  | reg (n : Fin 8)
  | mem (k : Word)
  | sp
  | pc
  | ov
  | lit (n : Fin 32)
deriving DecidableEq, Repr

/-- The location is in the read-only literal pool (R23). -/
def Loc.isLit : Loc → Bool
  | .lit _ => true
  | .reg _ | .mem _ | .sp | .pc | .ov => false

/-- What the resolver returns: a location, and the state after its side effects. -/
structure Resolved where
  loc   : Loc
  state : State
deriving DecidableEq, Repr

/-- `Resolve(code)` (R78): one arm per rule R79 to R90. The index of a memory location is fixed here (D29). -/
def resolve (o : Operand) (s : State) : Resolved :=
  match o with
  | .reg n => ⟨.reg n, s⟩
  | .atReg n => ⟨.mem (s.readReg n), s⟩
  | .atNextPlusReg n => ⟨.mem (s.readMem s.pc + s.readReg n), s.advancePc⟩
  | .pop => ⟨.mem s.sp, s.setSp (s.sp + 1)⟩
  | .peek => ⟨.mem s.sp, s⟩
  | .push => ⟨.mem (s.sp - 1), s.setSp (s.sp - 1)⟩
  | .sp => ⟨.sp, s⟩
  | .pc => ⟨.pc, s⟩
  | .ov => ⟨.ov, s⟩
  | .atNext => ⟨.mem (s.readMem s.pc), s.advancePc⟩
  | .next => ⟨.mem s.pc, s.advancePc⟩
  | .lit n => ⟨.lit n, s⟩

/-- Both locations of a binary-form instruction and the state after both resolutions. -/
structure ResolvedPair where
  dst   : Loc
  src   : Loc
  state : State
deriving DecidableEq, Repr

/-- Resolve `a` first, then `b` (R76). -/
def resolveBoth (a b : Operand) (s : State) : ResolvedPair :=
  let ra := resolve a s
  let rb := resolve b ra.state
  ⟨ra.loc, rb.loc, rb.state⟩

/-! ### Reading and writing a location (R91, R92) -/

/-- `LocRead(loc)` (R91). -/
def State.locRead (s : State) : Loc → Word
  | .reg n => s.readReg n
  | .mem k => s.readMem k
  | .sp => s.sp
  | .pc => s.pc
  | .ov => s.ov
  | .lit n => BitVec.ofNat 16 n

/-- `LocWrite(loc, v)` (R92): a write to the literal pool stores nothing and raises IllegalWriteTarget. -/
def State.locWrite (s : State) (l : Loc) (v : Word) : State :=
  match l with
  | .reg n => s.writeReg n v
  | .mem k => s.writeMem k v
  | .sp => s.setSp v
  | .pc => s.setPc v
  | .ov => s.setOv v
  | .lit _ => s.raise .illegalWriteTarget

/-! ### The phases of an instruction -/

/-- The skip test of R77, made after the operands are resolved: a pending skip is cleared and the effect left out. -/
def unlessSkipped (s : State) (effect : State → State) : State :=
  if s.skip then s.setSkip false else effect s

/-- Store a result, then `ov` if the instruction sets it (R93, R94). -/
def State.commit (s : State) (l : Loc) (r : AluResult) : State :=
  let t := s.locWrite l r.result
  match r.ov with
  | none => t
  | some o => t.setOv o

/-- A writing instruction (op 0x1 to 0xB): both values are read before anything is written, and a literal destination is
refused before any write (R93). -/
def execWriting (a b : Operand) (alu : Word → Word → AluResult) (s : State) : Host.Outcome State Fault Refusal :=
  let r := resolveBoth a b s
  .next (unlessSkipped r.state fun t =>
    if r.dst.isLit then t.raise .illegalWriteTarget
    else t.commit r.dst (alu (t.locRead r.dst) (t.locRead r.src)))

/-- A conditional (op 0xC to 0xF): nothing is written; if the condition does not hold, a skip is armed (R93, R140). -/
def execConditional (a b : Operand) (condition : Word → Word → Bool) (s : State) :
    Host.Outcome State Fault Refusal :=
  let r := resolveBoth a b s
  .next (unlessSkipped r.state fun t =>
    if condition (t.locRead r.dst) (t.locRead r.src) then t else t.setSkip true)

end Sys2Proof.Machine
end

