-- ==== Sys2Proof/Machine/Arith.lean ====
section
/-! DEFINITION. SET ADD SUB MUL DIV MOD (spec/41_move_arith.md). -/

namespace Sys2Proof.Machine

/-- SET (R101). -/
def execSet (a b : Operand) (s : State) : Host.Outcome State Fault Refusal :=
  execWriting a b (fun _ src => .plain src) s

/-- ADD (R102). -/
def execAdd (a b : Operand) (s : State) : Host.Outcome State Fault Refusal :=
  execWriting a b (fun dst src => .exact (trueSum dst src)) s

/-- SUB (R103). -/
def execSub (a b : Operand) (s : State) : Host.Outcome State Fault Refusal :=
  execWriting a b (fun dst src => .exact (trueDifference dst src)) s

/-- MUL (R104). -/
def execMul (a b : Operand) (s : State) : Host.Outcome State Fault Refusal :=
  execWriting a b (fun dst src => .exact (trueProduct dst src)) s

/-- The quotient of R105: 0 for a zero divisor, else the floor of the unsigned quotient. -/
def quotient (dst src : Word) : Word :=
  if src = 0 then 0 else BitVec.ofNat 16 (dst.toNat / src.toNat)

/-- DIV (R105). -/
def execDiv (a b : Operand) (s : State) : Host.Outcome State Fault Refusal :=
  execWriting a b (fun dst src => { result := quotient dst src, ov := some (ovDiv dst src) }) s

/-- The remainder of R106: 0 for a zero divisor, else the unsigned remainder. -/
def remainder (dst src : Word) : Word :=
  if src = 0 then 0 else BitVec.ofNat 16 (dst.toNat % src.toNat)

/-- MOD (R106). -/
def execMod (a b : Operand) (s : State) : Host.Outcome State Fault Refusal :=
  execWriting a b (fun dst src => .plain (remainder dst src)) s

end Sys2Proof.Machine
end

