-- ==== Sys2Proof/Machine/Conditional.lean ====
section
/-! DEFINITION. IFE IFN IFG IFB (spec/43_conditional_skip.md). -/

namespace Sys2Proof.Machine

/-- IFE (R141): the next instruction runs only if `dst = src`. -/
def execIfe (a b : Operand) (s : State) : Host.Outcome State Fault Refusal :=
  execConditional a b (fun dst src => dst == src) s

/-- IFN (R142): the next instruction runs only if `dst ≠ src`. -/
def execIfn (a b : Operand) (s : State) : Host.Outcome State Fault Refusal :=
  execConditional a b (fun dst src => dst != src) s

/-- IFG (R143): the next instruction runs only if `dst > src`, unsigned (D20). -/
def execIfg (a b : Operand) (s : State) : Host.Outcome State Fault Refusal :=
  execConditional a b (fun dst src => src.ult dst) s

/-- IFB (R144): the next instruction runs only if `dst` and `src` have a set bit in common. -/
def execIfb (a b : Operand) (s : State) : Host.Outcome State Fault Refusal :=
  execConditional a b (fun dst src => dst &&& src != 0) s

end Sys2Proof.Machine
end

