-- ==== Sys2Proof/Machine/Jsr.lean ====
section
/-! DEFINITION. JSR, the one instruction of the extended form (spec/44_extended_jsr.md). -/

namespace Sys2Proof.Machine

/-- Push a word: `sp <- sp - 1`, then `mem[sp] <- v` (R17, R151). -/
def State.push (s : State) (v : Word) : State :=
  let t := s.setSp (s.sp - 1)
  t.writeMem t.sp v

/-- JSR (R151): the target is read before the push (D8); the pushed `pc` is the address after the instruction's last word.
Under a pending skip the operand is resolved and nothing else happens (R152, C1). -/
def execJsr (b : Operand) (s : State) : Host.Outcome State Fault Refusal :=
  let r := resolve b s
  .next (unlessSkipped r.state fun t => (t.push t.pc).setPc (t.locRead r.loc))

end Sys2Proof.Machine
end

