-- ==== Sys2Proof/Machine/Logic.lean ====
section
/-! DEFINITION. SHL SHR AND BOR XOR (spec/42_shift_logic.md). -/

namespace Sys2Proof.Machine

/-- SHL (R121): by the whole value of `src`, not reduced (D7). -/
def execShl (a b : Operand) (s : State) : Host.Outcome State Fault Refusal :=
  execWriting a b (fun dst src => .exact (trueShift dst src)) s

/-- The floor of `dst / 2^src` (R122). -/
def shiftedRight (dst src : Word) : Word := BitVec.ofNat 16 (dst.toNat / 2 ^ src.toNat)

/-- SHR (R122). -/
def execShr (a b : Operand) (s : State) : Host.Outcome State Fault Refusal :=
  execWriting a b (fun dst src => { result := shiftedRight dst src, ov := some (ovShr dst src) }) s

/-- AND (R123). -/
def execAnd (a b : Operand) (s : State) : Host.Outcome State Fault Refusal :=
  execWriting a b (fun dst src => .plain (dst &&& src)) s

/-- BOR (R124). -/
def execBor (a b : Operand) (s : State) : Host.Outcome State Fault Refusal :=
  execWriting a b (fun dst src => .plain (dst ||| src)) s

/-- XOR (R125). -/
def execXor (a b : Operand) (s : State) : Host.Outcome State Fault Refusal :=
  execWriting a b (fun dst src => .plain (dst ^^^ src)) s

end Sys2Proof.Machine
end

