-- ==== Sys2Proof/WellFormed.lean ====
section
/-! DEFINITION. When an instruction with its next words is well formed (spec/30_encoding.md R54). Register numbers, literal
values and operand codes are in range by their types; every combination of operands is a defined instruction (R55), so the
one check is the number of next words. Which well-formed instruction a program can execute under a sentinel value (R58) is
`Instr.executable`, after the encoder in Decode.lean. -/

namespace Sys2Proof

/-- The instruction is followed by exactly the next words its operands consume (R54). -/
def InstrWords.wellFormed (c : InstrWords) : Bool := c.extra.length == c.instr.extraWords

end Sys2Proof
end

