-- ==== Sys2Proof/Decode.lean ====
section
/-! DEFINITION. Decoding, total on every word and every list of words, and after it the encoder, both written from the
tables of spec/30_encoding.md (R50 to R59). -/

namespace Sys2Proof

/-! ### Fields of the first word (R50, R51) -/

/-- `w[3:0]`, the opcode. -/
def opField (w : Word) : BitVec 4 := w.extractLsb' 0 4

/-- `w[9:4]`, the `a` operand code or the extended selector. -/
def aField (w : Word) : BitVec 6 := w.extractLsb' 4 6

/-- `w[15:10]`, the `b` operand code. -/
def bField (w : Word) : BitVec 6 := w.extractLsb' 10 6

/-- R51: `w = b * 1024 + a * 16 + op`. -/
def firstWord (op : BitVec 4) (a b : BitVec 6) : Word :=
  BitVec.ofNat 16 (b.toNat * 1024 + a.toNat * 16 + op.toNat)

/-- The selector of jump-to-subroutine in the `a` field of an extended word. PRESUMED: the source gives no number; R56 takes
0x01 from general knowledge (D2, log entry 4). -/
def jsrSelector : BitVec 6 := 0x01

/-! ### Decoding -/

/-- The operand a 6-bit code selects (the table of R52); every code is defined. -/
def decodeOperand (c : BitVec 6) : Operand :=
  let n := c.toNat
  if n < 0x08 then .reg (Fin.ofNat 8 n)
  else if n < 0x10 then .atReg (Fin.ofNat 8 (n - 0x08))
  else if n < 0x18 then .atNextPlusReg (Fin.ofNat 8 (n - 0x10))
  else if n = 0x18 then .pop
  else if n = 0x19 then .peek
  else if n = 0x1A then .push
  else if n = 0x1B then .sp
  else if n = 0x1C then .pc
  else if n = 0x1D then .ov
  else if n = 0x1E then .atNext
  else if n = 0x1F then .next
  else .lit (Fin.ofNat 32 (n - 0x20))

/-- Why a list of words is not an instruction. -/
inductive DecodeError where
  /-- An extended first word whose selector is not JSR's: reserved, IllegalOpcode when executed (R57). -/
  | reservedExtended (selector : BitVec 6)
  /-- There is no word to decode. -/
  | noWord
  /-- The list ends before the next words the first word asks for. -/
  | missingNextWord
deriving DecidableEq, Repr

/-- A row of the opcode table: the words it matches and the instruction they stand for. -/
structure OpcodeRow where
  pattern : Word
  mask    : Word
  build   : Operand → Operand → Instr

/-- Rows SET to MOD (R55). -/
def arithmeticRows : List OpcodeRow :=
  [⟨0x1, 0xF, .set⟩, ⟨0x2, 0xF, .add⟩, ⟨0x3, 0xF, .sub⟩, ⟨0x4, 0xF, .mul⟩, ⟨0x5, 0xF, .div⟩, ⟨0x6, 0xF, .mod⟩]

/-- Rows SHL to XOR (R55). -/
def logicRows : List OpcodeRow :=
  [⟨0x7, 0xF, .shl⟩, ⟨0x8, 0xF, .shr⟩, ⟨0x9, 0xF, .and⟩, ⟨0xA, 0xF, .bor⟩, ⟨0xB, 0xF, .xor⟩]

/-- Rows IFE to IFB (R55). -/
def conditionalRows : List OpcodeRow :=
  [⟨0xC, 0xF, .ife⟩, ⟨0xD, 0xF, .ifn⟩, ⟨0xE, 0xF, .ifg⟩, ⟨0xF, 0xF, .ifb⟩]

/-- The one row of the extended form (R56): the `a` field is a selector, not an operand. -/
def extendedRows : List OpcodeRow :=
  [⟨firstWord 0x0 jsrSelector 0x00, 0x3FF, fun _ b => .jsr b⟩]

/-- The whole opcode table. -/
def opcodeRows : List OpcodeRow := arithmeticRows ++ logicRows ++ conditionalRows ++ extendedRows

/-- The instruction a first word stands for (R59): the table row it matches; a word that matches no row is reserved. The halt
sentinel is tested by the step before this (R58). -/
def decodeFirst (w : Word) : Except DecodeError Instr :=
  match opcodeRows.find? (fun row => w &&& row.mask == row.pattern) with
  | some row => .ok (row.build (decodeOperand (aField w)) (decodeOperand (bField w)))
  | none => .error (.reservedExtended (aField w))

/-- Decode the instruction at the head of a word stream with its next words (R31, R54), and the rest of the stream. -/
def decode : List Word → Except DecodeError (InstrWords × List Word)
  | [] => .error .noWord
  | w :: ws =>
    match decodeFirst w with
    | .error e => .error e
    | .ok i =>
      if i.extraWords ≤ ws.length then .ok (⟨i, ws.take i.extraWords⟩, ws.drop i.extraWords)
      else .error .missingNextWord

/-! ### Encoding -/

/-- The 6-bit code of an operand (the table of R52). -/
def encodeOperand : Operand → BitVec 6
  | .reg n => BitVec.ofNat 6 n
  | .atReg n => BitVec.ofNat 6 (0x08 + n)
  | .atNextPlusReg n => BitVec.ofNat 6 (0x10 + n)
  | .pop => 0x18
  | .peek => 0x19
  | .push => 0x1A
  | .sp => 0x1B
  | .pc => 0x1C
  | .ov => 0x1D
  | .atNext => 0x1E
  | .next => 0x1F
  | .lit n => BitVec.ofNat 6 (0x20 + n)

/-- The first word of an instruction (R50, R55, R56). -/
def encodeFirst : Instr → Word
  | .set a b => firstWord 0x1 (encodeOperand a) (encodeOperand b)
  | .add a b => firstWord 0x2 (encodeOperand a) (encodeOperand b)
  | .sub a b => firstWord 0x3 (encodeOperand a) (encodeOperand b)
  | .mul a b => firstWord 0x4 (encodeOperand a) (encodeOperand b)
  | .div a b => firstWord 0x5 (encodeOperand a) (encodeOperand b)
  | .mod a b => firstWord 0x6 (encodeOperand a) (encodeOperand b)
  | .shl a b => firstWord 0x7 (encodeOperand a) (encodeOperand b)
  | .shr a b => firstWord 0x8 (encodeOperand a) (encodeOperand b)
  | .and a b => firstWord 0x9 (encodeOperand a) (encodeOperand b)
  | .bor a b => firstWord 0xA (encodeOperand a) (encodeOperand b)
  | .xor a b => firstWord 0xB (encodeOperand a) (encodeOperand b)
  | .ife a b => firstWord 0xC (encodeOperand a) (encodeOperand b)
  | .ifn a b => firstWord 0xD (encodeOperand a) (encodeOperand b)
  | .ifg a b => firstWord 0xE (encodeOperand a) (encodeOperand b)
  | .ifb a b => firstWord 0xF (encodeOperand a) (encodeOperand b)
  | .jsr b => firstWord 0x0 jsrSelector (encodeOperand b)

/-- The words of an instruction: the first word, then the next words in a-then-b order (R31, R64). -/
def encode (c : InstrWords) : List Word := encodeFirst c.instr :: c.extra

/-- The instruction's first word is not the halt sentinel, so a step that fetches it executes or skips it (R58, R187). -/
def Instr.executable (cfg : Config) (i : Instr) : Bool := encodeFirst i != cfg.haltSentinel

/-! ### The opcode table's numbering of an instruction's bits -/

/-- The words of an instruction whose bits are `w`, numbered as the opcode table numbers them: bits 15..0 are the first
word, bits 31..16 the second, bits 47..32 the third; bits from `nbits` up are 0. -/
def tableWords (nbits w : Nat) : List Word :=
  let v := w % 2 ^ nbits
  [BitVec.ofNat 16 v, BitVec.ofNat 16 (v / wordCount), BitVec.ofNat 16 (v / (wordCount * wordCount))]

/-- The instruction the decoder reads from such words. -/
def decodeTableWord (nbits w : Nat) : Option Instr :=
  match decode (tableWords nbits w) with
  | .ok (c, _) => some c.instr
  | .error _ => none

end Sys2Proof
end

