-- ==== Sys2Proof/Machine/Fetch.lean ====
section
/-! DEFINITION. The fetch and what it leads to, in the order of tests of spec/40_step_and_operands.md R70 and
spec/60_exceptions.md R168. -/

namespace Sys2Proof.Machine

/-- The first word of the next instruction, `mem[pc]` (R72). -/
def State.fetchWord (s : State) : Word := s.readMem s.pc

/-- What a step has before it. -/
inductive Fetched where
  /-- The machine is HALTED or FAULTED (R71). -/
  | stopped
  /-- The word at `pc` is the halt sentinel (R73). -/
  | sentinel
  /-- The word at `pc` is a reserved extended word (R75). -/
  | reserved
  /-- The word at `pc` is the first word of an instruction (R59). -/
  | instr (i : Instr)
deriving DecidableEq, Repr

/-- The run state first, then the sentinel, then the selector; neither test looks at the pending-skip flag (R168, D12, D13). -/
def State.fetch (s : State) : Fetched :=
  match s.run with
  | .halted | .faulted _ => .stopped
  | .running =>
    if s.fetchWord = s.cfg.haltSentinel then .sentinel
    else
      match decodeFirst s.fetchWord with
      | .ok i => .instr i
      | .error _ => .reserved

/-- The state in which an instruction executes: `pc` is past its first word (R74). -/
def State.enterInstr (s : State) : State := s.advancePc

/-- The end of a step on a reserved extended word: after the `pc` advance, before any operand is resolved (R161). -/
def State.illegalOpcode (s : State) : State := s.advancePc.raise .illegalOpcode

/-- Write words from an address upward, wrapping (R36). -/
def State.writeWords (s : State) (a : Word) : List Word → State
  | [] => s
  | w :: ws => (s.writeMem a w).writeWords (a + 1) ws

end Sys2Proof.Machine
end

