-- ==== Sys2Proof/Machine/Step.lean ====
section
/-! DEFINITION. The step (spec/40_step_and_operands.md R70): one atomic transition, the only thing that changes a state
after load and reset. -/

namespace Sys2Proof.Machine

/-- One step. A stopped machine does not change (R71); the sentinel halts it (R73); a reserved word raises IllegalOpcode (R75);
otherwise the instruction executes past its first word (R74, R76). -/
def step (s : State) : Host.Outcome State Fault Refusal :=
  match s.fetch with
  | .stopped => .next s
  | .sentinel => .next s.halt
  | .reserved => .next s.illegalOpcode
  | .instr i => exec i s.enterInstr

/-- The state with an instruction, given by its bits as the opcode table numbers them, where the next step fetches it: in the
three words from `pc` on. A fetch also needs a running machine. It stands for the load of a program (log entry 19). -/
def State.withFetchWord (s : State) (nbits w : Nat) : State :=
  (s.setRun .running).writeWords s.pc (tableWords nbits w)

end Sys2Proof.Machine
end

