-- ==== Sys2Proof/Machine/Interface.lean ====
section
/-! DEFINITION. The block's interface to its caller: load, the result a step reports, and observation
(spec/70_reset_and_hazards.md R180, R184; spec/60_exceptions.md R167, R174). None of it is state of the machine. -/

namespace Sys2Proof.Machine

/-- `Reset(stream)` for any instance of the parameters (R180, R181): the stream lies from address 0 upward, all else is as
after reset; a stream of more than 65536 words is refused (D17). -/
def State.load (cfg : Config) (p : ResetParams) (stream : List Word) : Option State :=
  if stream.length ≤ wordCount then some ({ State.resetWith cfg p with mem := Memory.ofWords 0 stream } : State) else none

/-- What a step reports to its caller (R167). An error comes with the first word and its address (R163, D27). -/
inductive StepResult where
  | ok
  | noMoreInstructions
  | error (kind : Fault) (word address : Word)
  | stopped (run : Run)
deriving DecidableEq, Repr

/-- The report of a step from `s` to `t` (R70): what the caller is told depends on the run state before and after. -/
def stepResult (s t : State) : StepResult :=
  match s.run with
  | .halted | .faulted _ => .stopped s.run
  | .running =>
    match t.run with
    | .running => .ok
    | .halted => .noMoreInstructions
    | .faulted k => .error k s.fetchWord s.pc

/-- `Step()` as the caller sees it: the next state and the report (R184). -/
def stepReported (s : State) : Host.Outcome (State × StepResult) Fault Refusal :=
  match step s with
  | .next t => .next (t, stepResult s t)
  | .fault r => .fault r
  | .refused r => .refused r

/-- One row of the trace (R174): the registers, and the three fields of the instruction about to execute. -/
structure Observation where
  pc   : Word
  sp   : Word
  ov   : Word
  skip : Bool
  x    : Vector Word 8
  op   : BitVec 4
  a    : BitVec 6
  b    : BitVec 6
deriving DecidableEq, Repr

/-- The trace row of a state; observing changes nothing (R174). -/
def observe (s : State) : Observation :=
  { pc := s.pc, sp := s.sp, ov := s.ov, skip := s.skip, x := s.x,
    op := opField s.fetchWord, a := aField s.fetchWord, b := bField s.fetchWord }

end Sys2Proof.Machine
end

