-- ==== Sys2Proof/Safety.lean ====
section
/-! DEFINITION. The terms claims are stated in: the kinds of instruction, how an operand moves `sp`, the value an instruction stores,
how a run ends, and the invariant every step keeps. Nothing here is used by the machine. -/

namespace Sys2Proof

/-! ### Kinds of instruction -/

/-- How resolving an operand moves `sp` (R82, R84): POP by 1, PUSH by -1, the others not. -/
def Operand.spMove : Operand → Word
  | .pop => 1
  | .push => -1
  | .reg _ | .atReg _ | .atNextPlusReg _ | .peek | .sp | .pc | .ov | .atNext | .next | .lit _ => 0

/-- How resolving an instruction's operands moves `sp`. -/
def Instr.spMove (i : Instr) : Word := (i.operandA.map Operand.spMove).getD 0 + i.operandB.spMove

/-- The eleven writing instructions, op 0x1 to 0xB (R57). -/
def Instr.isWriting : Instr → Bool
  | .set _ _ | .add _ _ | .sub _ _ | .mul _ _ | .div _ _ | .mod _ _ | .shl _ _ | .shr _ _
  | .and _ _ | .bor _ _ | .xor _ _ => true
  | .ife _ _ | .ifn _ _ | .ifg _ _ | .ifb _ _ | .jsr _ => false

/-- The six instructions that write `ov` as a side effect (R18). -/
def Instr.setsOv : Instr → Bool
  | .add _ _ | .sub _ _ | .mul _ _ | .div _ _ | .shl _ _ | .shr _ _ => true
  | .set _ _ | .mod _ _ | .and _ _ | .bor _ _ | .xor _ _ | .ife _ _ | .ifn _ _ | .ifg _ _ | .ifb _ _ | .jsr _ => false

/-- The four conditionals, op 0xC to 0xF (R140). -/
def Instr.isConditional : Instr → Bool
  | .ife _ _ | .ifn _ _ | .ifg _ _ | .ifb _ _ => true
  | .set _ _ | .add _ _ | .sub _ _ | .mul _ _ | .div _ _ | .mod _ _ | .shl _ _ | .shr _ _
  | .and _ _ | .bor _ _ | .xor _ _ | .jsr _ => false

/-- The value a writing instruction stores, from its operand values, as its rule writes it (R101 to R106, R121 to R125; shift
counts whole: D7, log entry 16); none for the others. -/
def Instr.result (i : Instr) (dst src : Word) : Option Word :=
  match i with
  | .set _ _ => some src
  | .add _ _ => some (dst + src)
  | .sub _ _ => some (dst - src)
  | .mul _ _ => some (dst * src)
  | .div _ _ => some (if src = 0 then 0 else dst / src)
  | .mod _ _ => some (if src = 0 then 0 else dst % src)
  | .shl _ _ => some (dst <<< src.toNat)
  | .shr _ _ => some (dst >>> src.toNat)
  | .and _ _ => some (dst &&& src)
  | .bor _ _ => some (dst ||| src)
  | .xor _ _ => some (dst ^^^ src)
  | .ife _ _ | .ifn _ _ | .ifg _ _ | .ifb _ _ | .jsr _ => none

/-- The value a writing instruction stores when it executes in `s`, `pc` past its first word: both operand values are read after
both resolutions (R93; D8, log entry 10). -/
def Instr.storedValue (i : Instr) (s : Machine.State) : Option Word :=
  i.operandA.bind fun a =>
    let r := Machine.resolveBoth a i.operandB s
    i.result (r.state.locRead r.dst) (r.state.locRead r.src)

namespace Machine

/-! ### How a run ends (R163, R166, R185) -/

/-- The run has ended as a claim may call successful: the machine fetched the sentinel (R166). -/
abbrev State.endedNormally (s : State) : Prop := s.run = .halted

/-- No fault has been raised; a claim about the contents of a state takes this as a premise (R163, D14). -/
abbrev State.notFaulted (s : State) : Prop := s.run = .running ∨ s.run = .halted

/-! ### The invariant -/

/-- The memory image is in canonical form, and a halted machine's `pc` addresses the sentinel it fetched (R166, R185). -/
abbrev State.Inv (s : State) : Prop :=
  s.mem.wf = true ∧ (s.run = .halted → s.readMem s.pc = s.cfg.haltSentinel)

end Machine

end Sys2Proof
end

