-- ==== Sys2Proof/Certificates/Slice0/Obligations.lean ====
section
/-! DEFINITION. The statements about the machine, each from rules of the spec. They hold for every value of the parameters a
state carries (`cfg`) and of the free value `Config.ovDiv`. By R163 none says what registers, `ov`, `sp`, `pc` or memory hold
after a step that faults: a whole-machine rule about them takes as premise that the step ends in no fault. -/

open Sys2Proof Sys2Proof.Machine

/-! ### Encoding -/

/-- Words written out bit by bit from R50 to R56, all of them words of spec/95_test_vectors.md, decode to the instruction they
stand for; the last rests on `jsrSelector` (log entry 4). -/
def Obligations.SpecWordsDecodeToTheirInstructions : Prop :=
  decodeFirst 0x79E1 = .ok (.set .atNext .atNext) ∧
  decodeFirst 0x4011 = .ok (.set (.reg 1) (.atNextPlusReg 0)) ∧
  decodeFirst 0x6192 = .ok (.add .peek .pop) ∧
  decodeFirst 0x85C3 = .ok (.sub .pc (.lit 1)) ∧
  decodeFirst 0x75D4 = .ok (.mul .ov .ov) ∧
  decodeFirst 0x6A0B = .ok (.xor (.lit 0) .push) ∧
  decodeFirst 0x8DED = .ok (.ifn .atNext (.lit 3)) ∧
  decodeFirst 0x042E = .ok (.ifg (.reg 2) (.reg 1)) ∧
  decodeFirst 0x7C10 = .ok (.jsr .next)

/-- Decoding the words of any well-formed instruction, whatever follows them, gives back the instruction, its next words and
what follows: no bit of an encoding is dropped (R50 to R56, R31). -/
def Obligations.DecodeInvertsEncode : Prop :=
  ∀ (c : InstrWords) (rest : List Word), c.wellFormed = true → decode (encode c ++ rest) = .ok (c, rest)

/-- A first word is the encoding of the one instruction it decodes to: no word has two readings, and no instruction two first
words (R51). -/
def Obligations.EncodeInvertsDecode : Prop :=
  ∀ (w : Word) (i : Instr), decodeFirst w = .ok i → encodeFirst i = w

/-- The words that are no instruction are exactly the extended words with another selector than JSR's (R57, R59). The
selector's value is the model's (log entry 4). -/
def Obligations.RejectedWordsAreTheReservedOnes : Prop :=
  ∀ w : Word, (∃ i, decodeFirst w = .ok i) ↔ ¬(opField w = 0 ∧ aField w ≠ jsrSelector)

/-- The length is read off the codes of the first word alone: 1, and 1 more for each operand code in 0x10..0x17, 0x1E or 0x1F,
where the `a` field of an extended word is no operand (R54). -/
def Obligations.LengthIsReadFromTheFirstWord : Prop :=
  ∀ (w : Word) (i : Instr), decodeFirst w = .ok i →
    let extra (c : BitVec 6) : Nat := if (0x10 ≤ c.toNat ∧ c.toNat ≤ 0x17) ∨ c.toNat = 0x1E ∨ c.toNat = 0x1F then 1 else 0
    i.length = 1 + (if opField w = 0 then 0 else extra (aField w)) + extra (bField w) ∧ 1 ≤ i.length ∧ i.length ≤ 3

/-! ### The step -/

/-- A running machine whose word at `pc` is not the sentinel and decodes to an instruction executes it with `pc` past that
word (R70, R74). -/
def Obligations.StepRunsTheDecodedInstruction : Prop :=
  ∀ (s : State) (i : Instr), s.run = .running → s.readMem s.pc ≠ s.cfg.haltSentinel →
    decodeFirst (s.readMem s.pc) = .ok i → step s = exec i { s with pc := s.pc + 1 }

/-- A running machine that fetches the sentinel halts; nothing else changes, whatever `skip` is (R73, R166; the order of the
tests is the spec's choice D13, log entry 15). -/
def Obligations.SentinelHaltsAndChangesNothingElse : Prop :=
  ∀ s : State, s.run = .running → s.readMem s.pc = s.cfg.haltSentinel → step s = .next { s with run := .halted }

/-- However often a HALTED or FAULTED machine is stepped, it stays as it is (R71, the spec's choice D15, log
entry 9). -/
def Obligations.StoppedMachineStaysAsItIs : Prop :=
  ∀ (s : State) (n : Nat), s.run ≠ .running → Host.Core.run Sys2Proof.core n s = .next s

/-- Every step of every state answers a next state: a fault of the hardware is a run state, and no operand, address or
operand value stops the model (R59, R165, U11; log entry 8). -/
def Obligations.EveryStepAnswersNext : Prop :=
  ∀ s : State, ∃ t, step s = .next t

/-- Which words end the run of a running machine: the sentinel halts it, a reserved extended word raises IllegalOpcode
whether or not a skip is pending, and a writing instruction with a short-literal destination, not skipped, raises
IllegalWriteTarget; nothing else does (R168; the spec's choices D11, D12, D13, log entries 13, 14,
15, and the selector, log entry 4). -/
def Obligations.HowAStepEndsTheRun : Prop :=
  ∀ s t : State, s.run = .running → step s = .next t →
    let w := s.readMem s.pc
    (t.run = .halted ↔ w = s.cfg.haltSentinel) ∧
    (t.run = .faulted .illegalOpcode ↔ w ≠ s.cfg.haltSentinel ∧ opField w = 0 ∧ aField w ≠ jsrSelector) ∧
    (t.run = .faulted .illegalWriteTarget ↔
      w ≠ s.cfg.haltSentinel ∧ 1 ≤ (opField w).toNat ∧ (opField w).toNat ≤ 0xB ∧ 0x20 ≤ (aField w).toNat ∧
        s.skip = false)

/-- What a step reports to its caller: of a stopped machine, the run state it has; of a running one, `ok`, `noMoreInstructions`
or an error with the first word and its address, by the run state the step ends in (R167; the names and the diagnostic are
the spec's choices D26, D27, log entry 22). -/
def Obligations.StepReportsHowItEnded : Prop :=
  ∀ s : State, ∃ t r, stepReported s = .next (t, r) ∧ step s = .next t ∧
    (s.run ≠ .running → r = .stopped s.run ∧ t = s) ∧
    (s.run = .running →
      (r = .ok ↔ t.run = .running) ∧ (r = .noMoreInstructions ↔ t.run = .halted) ∧
      (∀ k, r = .error k (s.readMem s.pc) s.pc ↔ t.run = .faulted k))

/-! ### Reset and load -/

/-- After a load `pc` is 0, the machine runs, memory holds the stream from address 0 and 0 elsewhere, and literal i reads as
i (R26). -/
def Obligations.LoadedStateHasTheSourcesResetValues : Prop :=
  ∀ (cfg : Config) (p : ResetParams) (stream : List Word), stream.length ≤ 65536 →
    ∃ s, State.load cfg p stream = some s ∧ s.pc = 0 ∧ s.run = .running ∧
      (∀ k : Word, s.readMem k = if h : k.toNat < stream.length then stream[k.toNat] else 0) ∧
      (∀ n : Fin 32, (s.locRead (.lit n)).toNat = n)

/-- What the spec decides of reset: the registers, `sp`, `ov` and `skip` at the parameters' values, which are 0 and false in
`State.reset`, and a stream of more than 65536 words refused (R27, R180, R181: D4, D17; log entries 7, 19). -/
def Obligations.ResetTakesTheDecidedValues : Prop :=
  (∀ (cfg : Config) (p : ResetParams) (stream : List Word),
    (State.load cfg p stream = none ↔ 65536 < stream.length) ∧
    (∀ s, State.load cfg p stream = some s →
      s.skip = p.skip ∧ s.x = p.x ∧ s.sp = p.sp ∧ s.ov = p.ov ∧ s.cfg = cfg)) ∧
  (∀ n, State.reset.readReg n = 0) ∧ State.reset.sp = 0 ∧ State.reset.ov = 0 ∧ State.reset.skip = false

/-- The invariant holds at reset and of every loaded machine. -/
def Obligations.ResetAndLoadMeetInv : Prop :=
  State.reset.Inv ∧ ∀ (cfg : Config) (p : ResetParams) (stream : List Word) (s : State),
    State.load cfg p stream = some s → s.Inv

/-- Every step keeps the invariant: memory stays in canonical form, so equal memories stay equal data, and a halted machine's
`pc` addresses the sentinel (R166, R185; the canonical form is the model's, log entry 1). Of a FAULTED machine it says only
that the list which holds its memory has that form. -/
def Obligations.EveryStepKeepsInv : Prop :=
  ∀ s t : State, s.Inv → step s = .next t → t.Inv

/-! ### Operands -/

/-- What each operand code designates and does when it is resolved, by its number, and what reading each storage class gives
(R79 to R88, R90, R91). -/
def Obligations.OperandCodesResolveAsTheTableSays : Prop :=
  ∀ s : State,
    (∀ n : Fin 8,
      resolve (decodeOperand (BitVec.ofNat 6 n)) s = ⟨.reg n, s⟩ ∧
      resolve (decodeOperand (BitVec.ofNat 6 (0x08 + n))) s = ⟨.mem (s.readReg n), s⟩ ∧
      resolve (decodeOperand (BitVec.ofNat 6 (0x10 + n))) s =
        ⟨.mem (s.readMem s.pc + s.readReg n), { s with pc := s.pc + 1 }⟩) ∧
    resolve (decodeOperand 0x18) s = ⟨.mem s.sp, { s with sp := s.sp + 1 }⟩ ∧
    resolve (decodeOperand 0x19) s = ⟨.mem s.sp, s⟩ ∧
    resolve (decodeOperand 0x1A) s = ⟨.mem (s.sp - 1), { s with sp := s.sp - 1 }⟩ ∧
    resolve (decodeOperand 0x1B) s = ⟨.sp, s⟩ ∧
    resolve (decodeOperand 0x1C) s = ⟨.pc, s⟩ ∧
    resolve (decodeOperand 0x1D) s = ⟨.ov, s⟩ ∧
    resolve (decodeOperand 0x1E) s = ⟨.mem (s.readMem s.pc), { s with pc := s.pc + 1 }⟩ ∧
    (∀ n : Fin 32, resolve (decodeOperand (BitVec.ofNat 6 (0x20 + n))) s = ⟨.lit n, s⟩) ∧
    (∀ n : Fin 8, s.locRead (.reg n) = s.x[n]) ∧ (∀ k, s.locRead (.mem k) = s.readMem k) ∧
    s.locRead .sp = s.sp ∧ s.locRead .pc = s.pc ∧ s.locRead .ov = s.ov ∧
    (∀ n : Fin 32, (s.locRead (.lit n)).toNat = n)

/-- Code 0x1F designates the word at `pc`, and a SET to it replaces that word in memory (R89, the spec's choice D10; log
entry 12). Memory is in canonical form. -/
def Obligations.NextWordDestinationIsReplacedInMemory : Prop :=
  ∀ (b : Operand) (s : State), s.mem.wf = true → s.skip = false →
    resolve (decodeOperand 0x1F) s = ⟨.mem s.pc, { s with pc := s.pc + 1 }⟩ ∧
    ∃ t, exec (.set .next b) s = .next t ∧
      t.readMem s.pc = (resolveBoth .next b s).state.locRead (resolveBoth .next b s).src

/-- Writing a location that is not a literal and reading it gives the value written, and every other location, the
pending-skip flag and the run state are as before (R34, R91, R92); a write to a literal raises IllegalWriteTarget. Memory is
in canonical form. -/
def Obligations.WrittenLocationReadsBack : Prop :=
  ∀ (s : State) (l : Loc) (v : Word), s.mem.wf = true →
    (l.isLit = false →
      (s.locWrite l v).locRead l = v ∧ (∀ l', l' ≠ l → (s.locWrite l v).locRead l' = s.locRead l') ∧
      (s.locWrite l v).skip = s.skip ∧ (s.locWrite l v).run = s.run) ∧
    (l.isLit = true → (s.locWrite l v).run = .faulted .illegalWriteTarget)

/-! ### Results of the writing instructions

Each says, for every pair of operands, what `exec` answers when no skip is pending: with a destination that can be written,
the next state; with a short literal as destination, the fault IllegalWriteTarget. -/

/-- SET: the value of the source goes to the destination, and nothing more is written (R101). -/
def Obligations.SetCopiesTheSource : Prop :=
  ∀ (a b : Operand) (s : State), s.skip = false →
    let r := resolveBoth a b s
    (a.isLit = false → exec (.set a b) s = .next (r.state.locWrite r.dst (r.state.locRead r.src))) ∧
    (a.isLit = true → ∃ t, exec (.set a b) s = .next t ∧ t.run = .faulted .illegalWriteTarget)

/-- ADD: the sum modulo 65536; `ov` is the carry, 0 or 1 (R102). Both values are read after both resolutions and `ov` is set
after the destination (the spec's choices D8 and D9, log entries 10 and 11). -/
def Obligations.AddGivesSumAndCarry : Prop :=
  ∀ (a b : Operand) (s : State), s.skip = false →
    let r := resolveBoth a b s
    let dst := r.state.locRead r.dst
    let src := r.state.locRead r.src
    (a.isLit = false →
      exec (.add a b) s =
        .next ((r.state.locWrite r.dst (BitVec.ofNat 16 ((dst.toNat + src.toNat) % 65536))).setOv
          (if 65536 ≤ dst.toNat + src.toNat then 1 else 0))) ∧
    (a.isLit = true → ∃ t, exec (.add a b) s = .next t ∧ t.run = .faulted .illegalWriteTarget)

/-- SUB: the difference modulo 65536; `ov` is 0xFFFF on a borrow and 0 otherwise (R103, with the spec's choice D18, log
entry 16). Both values are read after both resolutions and `ov` is set after the destination (the spec's choices D8 and D9,
log entries 10 and 11). -/
def Obligations.SubGivesDifferenceAndBorrow : Prop :=
  ∀ (a b : Operand) (s : State), s.skip = false →
    let r := resolveBoth a b s
    let dst := r.state.locRead r.dst
    let src := r.state.locRead r.src
    (a.isLit = false →
      exec (.sub a b) s =
        .next ((r.state.locWrite r.dst (dst - src)).setOv (if dst.toNat < src.toNat then 0xFFFF else 0))) ∧
    (a.isLit = true → ∃ t, exec (.sub a b) s = .next t ∧ t.run = .faulted .illegalWriteTarget)

/-- MUL: the low half of the unsigned 32-bit product goes to the destination, the high half to `ov` (R104). Both values are
read after both resolutions and `ov` is set after the destination (the spec's choices D8 and D9, log entries 10 and 11). -/
def Obligations.MulGivesLowAndHighHalf : Prop :=
  ∀ (a b : Operand) (s : State), s.skip = false →
    let r := resolveBoth a b s
    let product : BitVec 32 := (r.state.locRead r.dst).setWidth 32 * (r.state.locRead r.src).setWidth 32
    (a.isLit = false →
      exec (.mul a b) s =
        .next ((r.state.locWrite r.dst (product.extractLsb' 0 16)).setOv (product.extractLsb' 16 16))) ∧
    (a.isLit = true → ∃ t, exec (.mul a b) s = .next t ∧ t.run = .faulted .illegalWriteTarget)

/-- DIV: the unsigned quotient rounded down, 0 for a zero divisor, never a division fault; `ov` gets the value of the free
parameter OV_DIV of the two operands (R105; D5, log entry 5). Both values are read after both resolutions and `ov` is set after
the destination (the spec's choices D8 and D9, log entries 10 and 11). -/
def Obligations.DivGivesTheQuotient : Prop :=
  ∀ (a b : Operand) (s : State), s.skip = false →
    let r := resolveBoth a b s
    let dst := r.state.locRead r.dst
    let src := r.state.locRead r.src
    (a.isLit = false → ∃ q : Word,
      exec (.div a b) s = .next ((r.state.locWrite r.dst q).setOv (Config.ovDiv dst src)) ∧
      (src = 0 → q = 0) ∧
      (src ≠ 0 → q.toNat * src.toNat ≤ dst.toNat ∧ dst.toNat < (q.toNat + 1) * src.toNat)) ∧
    (a.isLit = true → ∃ t, exec (.div a b) s = .next t ∧ t.run = .faulted .illegalWriteTarget)

/-- MOD: the unsigned remainder, 0 for a zero divisor; `ov` keeps its value unless it is the destination (R106).
Both values are read after both resolutions (the spec's choice D8, log entry 10). -/
def Obligations.ModGivesTheRemainder : Prop :=
  ∀ (a b : Operand) (s : State), s.skip = false →
    let r := resolveBoth a b s
    let dst := r.state.locRead r.dst
    let src := r.state.locRead r.src
    (a.isLit = false → ∃ m : Word,
      exec (.mod a b) s = .next (r.state.locWrite r.dst m) ∧
      (src = 0 → m = 0) ∧
      (src ≠ 0 → m.toNat < src.toNat ∧ dst.toNat = (dst.toNat / src.toNat) * src.toNat + m.toNat)) ∧
    (a.isLit = true → ∃ t, exec (.mod a b) s = .next t ∧ t.run = .faulted .illegalWriteTarget)

/-- SHL: shifted left by the whole value of `src`; `ov` holds the bits shifted out for a count up to 16, bits 31..16 of the
true result beyond that (R121, with the spec's choices D7 and D18 for counts of 16 and more, log entry 16). Both values are read
after both resolutions and `ov` is set after the destination (the spec's choices D8 and D9, log entries 10 and 11). -/
def Obligations.ShlGivesTheShiftedWordAndTheBitsShiftedOut : Prop :=
  ∀ (a b : Operand) (s : State), s.skip = false →
    let r := resolveBoth a b s
    let dst := r.state.locRead r.dst
    let count := (r.state.locRead r.src).toNat
    (a.isLit = false →
      exec (.shl a b) s =
        .next ((r.state.locWrite r.dst (dst <<< count)).setOv
          (if count ≤ 16 then dst >>> (16 - count) else dst <<< (count - 16)))) ∧
    (a.isLit = true → ∃ t, exec (.shl a b) s = .next t ∧ t.run = .faulted .illegalWriteTarget)

/-- SHR: shifted right by the whole value of `src`, filling with zeros; `ov` becomes 0 (R122, with the spec's choices D6 and D7,
log entries 6 and 16). Both values are read after both resolutions and `ov` is set after the destination (the spec's choices D8
and D9, log entries 10 and 11). -/
def Obligations.ShrGivesTheShiftedWord : Prop :=
  ∀ (a b : Operand) (s : State), s.skip = false →
    let r := resolveBoth a b s
    let dst := r.state.locRead r.dst
    let count := (r.state.locRead r.src).toNat
    (a.isLit = false → exec (.shr a b) s = .next ((r.state.locWrite r.dst (dst >>> count)).setOv 0)) ∧
    (a.isLit = true → ∃ t, exec (.shr a b) s = .next t ∧ t.run = .faulted .illegalWriteTarget)

/-- AND, BOR, XOR: bit k of the result is the operation on bit k of both operands; nothing more is written (R123, R124,
R125). Both values are read after both resolutions (the spec's choice D8, log entry 10). -/
def Obligations.BitwiseInstructionsActBitByBit : Prop :=
  ∀ (a b : Operand) (s : State), s.skip = false →
    let r := resolveBoth a b s
    let dst := r.state.locRead r.dst
    let src := r.state.locRead r.src
    (a.isLit = false →
      (∃ v : Word, exec (.and a b) s = .next (r.state.locWrite r.dst v) ∧
        ∀ k, v.getLsbD k = (dst.getLsbD k && src.getLsbD k)) ∧
      (∃ v : Word, exec (.bor a b) s = .next (r.state.locWrite r.dst v) ∧
        ∀ k, v.getLsbD k = (dst.getLsbD k || src.getLsbD k)) ∧
      (∃ v : Word, exec (.xor a b) s = .next (r.state.locWrite r.dst v) ∧
        ∀ k, v.getLsbD k = (dst.getLsbD k != src.getLsbD k))) ∧
    (a.isLit = true → ∀ i ∈ [Instr.and a b, Instr.bor a b, Instr.xor a b],
      ∃ t, exec i s = .next t ∧ t.run = .faulted .illegalWriteTarget)

/-! ### Conditionals and the pending-skip flag -/

/-- IFE, IFN, IFB: they write no location; a skip is armed exactly if the operands differ, are equal, have no set bit in common
(R141, R142, R144). Literal operands are no fault. Both values are read after both resolutions (the spec's choice D8, log
entry 10). -/
def Obligations.IfeIfnIfbArmTheSkip : Prop :=
  ∀ (a b : Operand) (s : State), s.skip = false →
    let r := resolveBoth a b s
    let dst := r.state.locRead r.dst
    let src := r.state.locRead r.src
    (∃ f, exec (.ife a b) s = .next (r.state.setSkip f) ∧ (f = true ↔ dst ≠ src)) ∧
    (∃ f, exec (.ifn a b) s = .next (r.state.setSkip f) ∧ (f = true ↔ dst = src)) ∧
    (∃ f, exec (.ifb a b) s = .next (r.state.setSkip f) ∧
      (f = true ↔ ∀ k, ¬(dst.getLsbD k = true ∧ src.getLsbD k = true)))

/-- IFG: it writes no location; a skip is armed exactly if `dst` is not greater than `src`, both read as unsigned numbers (R143,
the spec's choice D20, log entry 17). Both values are read after both resolutions (the spec's choice D8, log entry 10). -/
def Obligations.IfgComparesUnsigned : Prop :=
  ∀ (a b : Operand) (s : State), s.skip = false →
    let r := resolveBoth a b s
    ∃ f, exec (.ifg a b) s = .next (r.state.setSkip f) ∧
      (f = true ↔ (r.state.locRead r.dst).toNat ≤ (r.state.locRead r.src).toNat)

/-- Under a pending skip a step only clears the flag, advances `pc` past all the instruction's words and moves `sp` as its POP
and PUSH operands do, whatever instruction it is: JSR pushes and jumps nowhere, a literal destination is no fault, a
conditional is not evaluated (R77). That a skipped JSR resolves its operand is the resolution of conflict C1 (log entry 18,
DEDUCED), and that a skipped literal destination is no fault is the spec's choice D11 (log entry 13). -/
def Obligations.SkippedInstructionOnlyAdvances : Prop :=
  ∀ (s : State) (i : Instr), s.run = .running → s.readMem s.pc ≠ s.cfg.haltSentinel →
    decodeFirst (s.readMem s.pc) = .ok i → s.skip = true →
    step s = .next { s with pc := s.pc + BitVec.ofNat 16 i.length, sp := s.sp + i.spMove, skip := false }

/-- The flag is set only by a step of a machine with no skip pending whose word is a conditional (op 0xC to 0xF), and once set it
is cleared by the next step that is not ended by the halt check or a reserved word (R19). A step that faults is left out
(R163). -/
def Obligations.OnlyConditionalsArmTheSkip : Prop :=
  ∀ s t : State, step s = .next t →
    (t.notFaulted → s.skip = false → t.skip = true → s.run = .running ∧ 0xC ≤ (opField (s.readMem s.pc)).toNat) ∧
    (s.skip = true → s.run = .running → t.run = .running → t.skip = false)

/-! ### JSR -/

/-- JSR: the target is the operand's value before the push; the address after the instruction's last word goes to the word below
`sp`, `sp` is decremented and `pc` is the target; registers, `ov`, the flag, the run state and every other word of memory
stay (R151, with the spec's choice D8, log entry 10; the selector is log entry 4). Memory is in canonical form. -/
def Obligations.JsrPushesTheReturnAddressAndJumps : Prop :=
  ∀ (b : Operand) (s : State), s.mem.wf = true → s.skip = false →
    let r := resolve b s
    ∃ t, exec (.jsr b) s = .next t ∧
      t.pc = r.state.locRead r.loc ∧ t.sp = s.sp + b.spMove - 1 ∧
      t.readMem t.sp = s.pc + BitVec.ofNat 16 b.extraWords ∧
      (∀ k, k ≠ t.sp → t.readMem k = s.readMem k) ∧
      t.x = s.x ∧ t.ov = s.ov ∧ t.skip = false ∧ t.run = s.run ∧ t.cfg = s.cfg

/-- SET PC, POP is the return: executed where JSR's stack and memory still stand, it goes to the address after the call and gives
`sp` the value it had before the push (R154; JSR with the spec's choice D8, log entry 10). Memory is in canonical form. -/
def Obligations.SetPcPopReturnsFromJsr : Prop :=
  ∀ (b : Operand) (s t u : State), s.mem.wf = true → s.skip = false → exec (.jsr b) s = .next t →
    u.skip = false → u.sp = t.sp → u.mem = t.mem →
    ∃ v, exec (.set .pc .pop) u = .next v ∧
      v.pc = s.pc + BitVec.ofNat 16 b.extraWords ∧ v.sp = s.sp + b.spMove ∧ v.mem = u.mem ∧ v.x = u.x ∧ v.ov = u.ov

/-! ### Frames -/

/-- What a writing instruction that executes leaves alone: every register but its destination; `ov` unless it is the destination
or the instruction sets it; the flag and the run state; `sp` but for POP and PUSH operands and `pc` but for the advance,
unless they are the destination; and every word of memory but the one its resolved destination names (R10, R17, R18, R100,
R120). -/
def Obligations.WritingInstructionsChangeOnlyTheirDestination : Prop :=
  ∀ (i : Instr) (a : Operand) (s t : State), i.isWriting = true → i.operandA = some a → a.isLit = false →
    s.skip = false → exec i s = .next t →
    (∀ n, a ≠ .reg n → t.readReg n = s.readReg n) ∧
    (a ≠ .ov → i.setsOv = false → t.ov = s.ov) ∧
    (a ≠ .sp → t.sp = s.sp + i.spMove) ∧
    (a ≠ .pc → t.pc = s.pc + BitVec.ofNat 16 i.extraWords) ∧
    t.skip = false ∧ t.run = s.run ∧ t.cfg = s.cfg ∧
    (∀ k, (resolveBoth a i.operandB s).dst ≠ .mem k → t.readMem k = s.readMem k)

/-- A conditional that executes changes nothing but the flag, `pc` by its length and `sp` by its POP and PUSH operands: no
register, not `ov`, no word of memory (R140). -/
def Obligations.ConditionalsWriteNoLocation : Prop :=
  ∀ (i : Instr) (s : State), i.isConditional = true → s.skip = false →
    ∃ t, exec i s = .next t ∧ t.x = s.x ∧ t.ov = s.ov ∧ (∀ k, t.readMem k = s.readMem k) ∧ t.run = s.run ∧
      t.cfg = s.cfg ∧ t.sp = s.sp + i.spMove ∧ t.pc = s.pc + BitVec.ofNat 16 i.extraWords

/-! ### Whole-machine rules: over every step, which steps change what -/

/-- A step that ends in no fault changes register n only if it executes, with no skip pending, a writing instruction whose `a`
code is n (R10, R163). -/
def Obligations.RegisterChangesOnlyAsDestination : Prop :=
  ∀ (s t : State) (n : Fin 8), step s = .next t → t.notFaulted → t.readReg n ≠ s.readReg n →
    let w := s.readMem s.pc
    s.run = .running ∧ s.skip = false ∧ 1 ≤ (opField w).toNat ∧ (opField w).toNat ≤ 0xB ∧ (aField w).toNat = n

/-- A step that ends in no fault changes `ov` only if it executes, with no skip pending, ADD SUB MUL DIV SHL or SHR, or a writing
instruction whose `a` code is 0x1D (R18, R163). -/
def Obligations.OvChangesOnlyAsTheRuleSays : Prop :=
  ∀ s t : State, step s = .next t → t.notFaulted → t.ov ≠ s.ov →
    let w := s.readMem s.pc
    s.run = .running ∧ s.skip = false ∧
      (opField w ∈ [0x2#4, 0x3#4, 0x4#4, 0x5#4, 0x7#4, 0x8#4] ∨
        (1 ≤ (opField w).toNat ∧ (opField w).toNat ≤ 0xB ∧ (aField w).toNat = 0x1D))

/-- A step that ends in no fault changes a word of memory only if it executes, with no skip pending, a writing instruction whose
destination resolves to that word, or a JSR that pushes there (R33, R163). -/
def Obligations.MemoryChangesOnlyWhereStored : Prop :=
  ∀ (s t : State) (k : Word), step s = .next t → t.notFaulted → t.readMem k ≠ s.readMem k →
    s.run = .running ∧ s.skip = false ∧
      ∃ i, decodeFirst (s.readMem s.pc) = .ok i ∧
        ((i.isWriting = true ∧ ∃ a, i.operandA = some a ∧
            (resolveBoth a i.operandB { s with pc := s.pc + 1 }).dst = .mem k) ∨
          ∃ b, i = .jsr b ∧ k = s.sp + b.spMove - 1)

/-- Where `sp` goes in a step that leaves the machine running (R17): a JSR, executed, moves it by its operand and one further
down; a writing instruction, executed, whose `a` code is 0x1B stores its result there; every other step, skipped ones among
them, moves it by the POP and PUSH operands of its instruction. The result is of values read after both resolutions (the
spec's choice D8, log entry 10), a shift's of its whole count (D7, log entry 16); a skipped JSR resolves its operand (C1, log
entry 18). -/
def Obligations.SpMovesOnlyAsTheRuleSays : Prop :=
  ∀ s t : State, s.run = .running → step s = .next t → t.run = .running →
    ∃ i, decodeFirst (s.readMem s.pc) = .ok i ∧
      ((s.skip = false ∧ (∃ b, i = .jsr b) ∧ t.sp = s.sp + i.spMove - 1) ∨
        (s.skip = false ∧ i.isWriting = true ∧ i.operandA = some .sp ∧
          i.storedValue { s with pc := s.pc + 1 } = some t.sp) ∨
        ((s.skip = false → (∀ b, i ≠ .jsr b) ∧ ¬(i.isWriting = true ∧ i.operandA = some .sp)) ∧
          t.sp = s.sp + i.spMove))

/-- The complete list of the ways `pc` changes in a step that leaves the machine running (R155): a JSR, executed, goes to its
target, the value of its operand before the push; a writing instruction, executed, whose `a` code is 0x1C stores its result
there; every other step, skipped ones among them, goes past its instruction's words. Values are read after all resolutions
(the spec's choice D8, log entry 10), a shift's result is of its whole count (D7, log entry 16), and a skipped JSR resolves
its operand (C1, log entry 18). -/
def Obligations.PcChangesOnlyInTheListedWays : Prop :=
  ∀ s t : State, s.run = .running → step s = .next t → t.run = .running →
    ∃ i, decodeFirst (s.readMem s.pc) = .ok i ∧
      let e : State := { s with pc := s.pc + 1 }
      ((s.skip = false ∧ ∃ b, i = .jsr b ∧ t.pc = (resolve b e).state.locRead (resolve b e).loc) ∨
        (s.skip = false ∧ i.isWriting = true ∧ i.operandA = some .pc ∧ i.storedValue e = some t.pc) ∨
        ((s.skip = false → (∀ b, i ≠ .jsr b) ∧ ¬(i.isWriting = true ∧ i.operandA = some .pc)) ∧
          t.pc = s.pc + BitVec.ofNat 16 i.length))

/-- No step changes the parameters the state carries (R5: one instance for a whole run; log entry 3). -/
def Obligations.NoStepChangesTheParameters : Prop :=
  ∀ s t : State, step s = .next t → t.cfg = s.cfg

/-- A store is seen by the very next fetch (R43). If a writing instruction's destination resolves to the word its execution
leaves `pc` at, the word the next step fetches is the result just stored, whichever of the eleven it is; if a JSR jumps to
the very word it pushes to, the word the next step fetches is the return address just pushed. Values are read after all
resolutions and before the write or push (the spec's choice D8, log entry 10), and a shift's result is of its whole count (D7,
log entry 16). Memory is in canonical form. -/
def Obligations.StoreIsSeenByTheNextFetch : Prop :=
  (∀ (i : Instr) (a : Operand) (s : State), i.isWriting = true → i.operandA = some a → s.mem.wf = true →
    s.skip = false →
    let r := resolveBoth a i.operandB s
    r.dst = .mem r.state.pc →
      ∃ t, exec i s = .next t ∧ t.pc = r.state.pc ∧ i.storedValue s = some t.fetchWord) ∧
  (∀ (b : Operand) (s : State), s.mem.wf = true → s.skip = false →
    let r := resolve b s
    let top := s.sp + b.spMove - 1
    r.state.locRead r.loc = top →
      ∃ t, exec (.jsr b) s = .next t ∧ t.pc = top ∧ t.fetchWord = s.pc + BitVec.ofNat 16 b.extraWords)
end

