-- ==== Sys2Proof/Laws/Encoding.lean ====
section
/-! SUPPORT. The fields of a composed first word, and the operand codes (R50 to R52). -/

namespace Sys2Proof

@[simp] theorem opField_firstWord (op : BitVec 4) (a b : BitVec 6) : opField (firstWord op a b) = op := by
  apply BitVec.eq_of_toNat_eq
  have := op.isLt; have := a.isLt; have := b.isLt
  simp [opField, firstWord]
  omega

@[simp] theorem aField_firstWord (op : BitVec 4) (a b : BitVec 6) : aField (firstWord op a b) = a := by
  apply BitVec.eq_of_toNat_eq
  have := op.isLt; have := a.isLt; have := b.isLt
  simp [aField, firstWord, Nat.shiftRight_eq_div_pow]
  omega

@[simp] theorem bField_firstWord (op : BitVec 4) (a b : BitVec 6) : bField (firstWord op a b) = b := by
  apply BitVec.eq_of_toNat_eq
  have := op.isLt; have := a.isLt; have := b.isLt
  simp [bField, firstWord, Nat.shiftRight_eq_div_pow]
  omega

/-- A first word is made of its three fields (R51). -/
theorem firstWord_fields (w : Word) : firstWord (opField w) (aField w) (bField w) = w := by
  apply BitVec.eq_of_toNat_eq
  have := w.isLt
  simp [opField, aField, bField, firstWord, Nat.shiftRight_eq_div_pow]
  omega

/-- The low four bits of a word are its opcode, as the masks of the opcode table read it. -/
theorem and_opMask (w : Word) : w &&& 15#16 = (opField w).setWidth 16 := by
  ext k hk
  simp only [opField, BitVec.getElem_and, BitVec.getElem_setWidth, BitVec.getLsbD_extractLsb']
  have mask : (15#16)[k] = decide (k < 4) := by revert k; decide
  rw [mask]
  by_cases h : k < 4 <;> simp [h, hk]

/-- The low ten bits of a word are its opcode and its `a` field. -/
theorem and_extendedMask (w : Word) : w &&& 1023#16 = firstWord (opField w) (aField w) 0 := by
  apply BitVec.eq_of_toNat_eq
  have h : (w &&& 1023#16).toNat = w.toNat % 1024 := by
    rw [BitVec.toNat_and]
    exact Nat.and_two_pow_sub_one_eq_mod w.toNat 10
  rw [h]
  simp [opField, aField, firstWord, Nat.shiftRight_eq_div_pow]
  omega

/-- Every code is the code of the operand it selects, and every operand is the one its code selects. -/
theorem encodeOperand_decodeOperand : ∀ c : BitVec 6, encodeOperand (decodeOperand c) = c := by decide

theorem decodeOperand_encodeOperand (o : Operand) : decodeOperand (encodeOperand o) = o := by
  cases o with
  | reg n | atReg n | atNextPlusReg n | lit n => revert n; decide
  | pop | peek | push | sp | pc | ov | atNext | next => decide

/-! ### The decoder and the encoder by their fields -/

theorem opcode_eq_zero (i : Instr) : i.opcode = 0 ↔ i.operandA = none := by
  cases i <;> simp [Instr.opcode, Instr.operandA]

/-- A binary-form instruction is encoded as its opcode and its two operand codes (R51, R55). -/
theorem encodeFirst_binary {i : Instr} {a : Operand} (h : i.operandA = some a) :
    encodeFirst i = firstWord i.opcode (encodeOperand a) (encodeOperand i.operandB) := by
  cases i <;> cases h <;> rfl

/-- A word with a nonzero opcode is the binary-form instruction of that opcode and the two operands its codes select (R55). -/
theorem decodeFirst_binary {w : Word} (h : opField w ≠ 0) :
    ∃ i, decodeFirst w = .ok i ∧ i.opcode = opField w ∧ i.operandA = some (decodeOperand (aField w)) ∧
      i.operandB = decodeOperand (bField w) := by
  have mask := and_opMask w
  have cases : opField w = 1 ∨ opField w = 2 ∨ opField w = 3 ∨ opField w = 4 ∨ opField w = 5 ∨ opField w = 6 ∨
      opField w = 7 ∨ opField w = 8 ∨ opField w = 9 ∨ opField w = 10 ∨ opField w = 11 ∨ opField w = 12 ∨
      opField w = 13 ∨ opField w = 14 ∨ opField w = 15 := by
    revert h
    generalize opField w = op
    revert op
    decide
  unfold decodeFirst
  rcases cases with e | e | e | e | e | e | e | e | e | e | e | e | e | e | e <;> rw [e] at mask <;>
    simp [opcodeRows, arithmeticRows, logicRows, conditionalRows, mask, e, Instr.opcode, Instr.operandA, Instr.operandB]

/-- A word with opcode 0 is a JSR if its `a` field is the selector, and reserved otherwise (R56, R57). -/
theorem decodeFirst_extended {w : Word} (h : opField w = 0) :
    decodeFirst w =
      if aField w = jsrSelector then .ok (.jsr (decodeOperand (bField w)))
      else .error (.reservedExtended (aField w)) := by
  have mask := and_opMask w
  have ext := and_extendedMask w
  rw [h] at mask ext
  have sel : (firstWord 0 (aField w) 0 == firstWord 0 jsrSelector 0) = (aField w == jsrSelector) := by
    rw [Bool.eq_iff_iff, beq_iff_eq, beq_iff_eq]
    exact ⟨fun e => by simpa using congrArg aField e, fun e => by rw [e]⟩
  unfold decodeFirst
  by_cases hs : aField w = jsrSelector <;>
    simp_all [opcodeRows, arithmeticRows, logicRows, conditionalRows, extendedRows]

/-- The opcode and the operands of a decoded instruction are those of the word's fields. -/
theorem decodeFirst_fields {w : Word} {i : Instr} (h : decodeFirst w = .ok i) :
    i.opcode = opField w ∧ i.operandB = decodeOperand (bField w) ∧
      ((opField w ≠ 0 ∧ i.operandA = some (decodeOperand (aField w))) ∨
        (opField w = 0 ∧ aField w = jsrSelector ∧ i = .jsr (decodeOperand (bField w)))) := by
  by_cases h0 : opField w = 0
  · rw [decodeFirst_extended h0] at h
    split at h
    · rename_i hs
      cases h
      exact ⟨h0.symm, rfl, .inr ⟨h0, hs, rfl⟩⟩
    · cases h
  · obtain ⟨j, hj, hop, ha, hb⟩ := decodeFirst_binary h0
    cases hj.symm.trans h
    exact ⟨hop, hb, .inl ⟨h0, ha⟩⟩

end Sys2Proof
end

