-- ==== Sys2Proof/Laws/State.lean ====
section
/-! SUPPORT. What each update of a state does to each field, and to the reads of registers and memory. -/

namespace Sys2Proof.Machine

variable (s : State)

/-! ### `writeMem` -/

@[simp] theorem State.writeMem_x (a v : Word) : (s.writeMem a v).x = s.x := rfl
@[simp] theorem State.writeMem_pc (a v : Word) : (s.writeMem a v).pc = s.pc := rfl
@[simp] theorem State.writeMem_sp (a v : Word) : (s.writeMem a v).sp = s.sp := rfl
@[simp] theorem State.writeMem_ov (a v : Word) : (s.writeMem a v).ov = s.ov := rfl
@[simp] theorem State.writeMem_skip (a v : Word) : (s.writeMem a v).skip = s.skip := rfl
@[simp] theorem State.writeMem_run (a v : Word) : (s.writeMem a v).run = s.run := rfl
@[simp] theorem State.writeMem_mem (a v : Word) : (s.writeMem a v).mem = Memory.write s.mem a.toNat v := rfl
@[simp] theorem State.writeMem_cfg (a v : Word) : (s.writeMem a v).cfg = s.cfg := rfl
@[simp] theorem State.writeMem_readReg (a v : Word) (m : Fin 8) : (s.writeMem a v).readReg m = s.readReg m := rfl

/-! ### `writeReg` -/

@[simp] theorem State.writeReg_x (n : Fin 8) (v : Word) : (s.writeReg n v).x = s.x.set n v := rfl
@[simp] theorem State.writeReg_pc (n : Fin 8) (v : Word) : (s.writeReg n v).pc = s.pc := rfl
@[simp] theorem State.writeReg_sp (n : Fin 8) (v : Word) : (s.writeReg n v).sp = s.sp := rfl
@[simp] theorem State.writeReg_ov (n : Fin 8) (v : Word) : (s.writeReg n v).ov = s.ov := rfl
@[simp] theorem State.writeReg_skip (n : Fin 8) (v : Word) : (s.writeReg n v).skip = s.skip := rfl
@[simp] theorem State.writeReg_run (n : Fin 8) (v : Word) : (s.writeReg n v).run = s.run := rfl
@[simp] theorem State.writeReg_mem (n : Fin 8) (v : Word) : (s.writeReg n v).mem = s.mem := rfl
@[simp] theorem State.writeReg_cfg (n : Fin 8) (v : Word) : (s.writeReg n v).cfg = s.cfg := rfl
@[simp] theorem State.writeReg_readMem (n : Fin 8) (v : Word) (k : Word) : (s.writeReg n v).readMem k = s.readMem k := rfl

/-! ### `setPc` -/

@[simp] theorem State.setPc_x (v : Word) : (s.setPc v).x = s.x := rfl
@[simp] theorem State.setPc_pc (v : Word) : (s.setPc v).pc = v := rfl
@[simp] theorem State.setPc_sp (v : Word) : (s.setPc v).sp = s.sp := rfl
@[simp] theorem State.setPc_ov (v : Word) : (s.setPc v).ov = s.ov := rfl
@[simp] theorem State.setPc_skip (v : Word) : (s.setPc v).skip = s.skip := rfl
@[simp] theorem State.setPc_run (v : Word) : (s.setPc v).run = s.run := rfl
@[simp] theorem State.setPc_mem (v : Word) : (s.setPc v).mem = s.mem := rfl
@[simp] theorem State.setPc_cfg (v : Word) : (s.setPc v).cfg = s.cfg := rfl
@[simp] theorem State.setPc_readMem (v : Word) (k : Word) : (s.setPc v).readMem k = s.readMem k := rfl
@[simp] theorem State.setPc_readReg (v : Word) (m : Fin 8) : (s.setPc v).readReg m = s.readReg m := rfl

/-! ### `setSp` -/

@[simp] theorem State.setSp_x (v : Word) : (s.setSp v).x = s.x := rfl
@[simp] theorem State.setSp_pc (v : Word) : (s.setSp v).pc = s.pc := rfl
@[simp] theorem State.setSp_sp (v : Word) : (s.setSp v).sp = v := rfl
@[simp] theorem State.setSp_ov (v : Word) : (s.setSp v).ov = s.ov := rfl
@[simp] theorem State.setSp_skip (v : Word) : (s.setSp v).skip = s.skip := rfl
@[simp] theorem State.setSp_run (v : Word) : (s.setSp v).run = s.run := rfl
@[simp] theorem State.setSp_mem (v : Word) : (s.setSp v).mem = s.mem := rfl
@[simp] theorem State.setSp_cfg (v : Word) : (s.setSp v).cfg = s.cfg := rfl
@[simp] theorem State.setSp_readMem (v : Word) (k : Word) : (s.setSp v).readMem k = s.readMem k := rfl
@[simp] theorem State.setSp_readReg (v : Word) (m : Fin 8) : (s.setSp v).readReg m = s.readReg m := rfl

/-! ### `setOv` -/

@[simp] theorem State.setOv_x (v : Word) : (s.setOv v).x = s.x := rfl
@[simp] theorem State.setOv_pc (v : Word) : (s.setOv v).pc = s.pc := rfl
@[simp] theorem State.setOv_sp (v : Word) : (s.setOv v).sp = s.sp := rfl
@[simp] theorem State.setOv_ov (v : Word) : (s.setOv v).ov = v := rfl
@[simp] theorem State.setOv_skip (v : Word) : (s.setOv v).skip = s.skip := rfl
@[simp] theorem State.setOv_run (v : Word) : (s.setOv v).run = s.run := rfl
@[simp] theorem State.setOv_mem (v : Word) : (s.setOv v).mem = s.mem := rfl
@[simp] theorem State.setOv_cfg (v : Word) : (s.setOv v).cfg = s.cfg := rfl
@[simp] theorem State.setOv_readMem (v : Word) (k : Word) : (s.setOv v).readMem k = s.readMem k := rfl
@[simp] theorem State.setOv_readReg (v : Word) (m : Fin 8) : (s.setOv v).readReg m = s.readReg m := rfl

/-! ### `setSkip` -/

@[simp] theorem State.setSkip_x (v : Bool) : (s.setSkip v).x = s.x := rfl
@[simp] theorem State.setSkip_pc (v : Bool) : (s.setSkip v).pc = s.pc := rfl
@[simp] theorem State.setSkip_sp (v : Bool) : (s.setSkip v).sp = s.sp := rfl
@[simp] theorem State.setSkip_ov (v : Bool) : (s.setSkip v).ov = s.ov := rfl
@[simp] theorem State.setSkip_skip (v : Bool) : (s.setSkip v).skip = v := rfl
@[simp] theorem State.setSkip_run (v : Bool) : (s.setSkip v).run = s.run := rfl
@[simp] theorem State.setSkip_mem (v : Bool) : (s.setSkip v).mem = s.mem := rfl
@[simp] theorem State.setSkip_cfg (v : Bool) : (s.setSkip v).cfg = s.cfg := rfl
@[simp] theorem State.setSkip_readMem (v : Bool) (k : Word) : (s.setSkip v).readMem k = s.readMem k := rfl
@[simp] theorem State.setSkip_readReg (v : Bool) (m : Fin 8) : (s.setSkip v).readReg m = s.readReg m := rfl

/-! ### `setRun` -/

@[simp] theorem State.setRun_x (v : Run) : (s.setRun v).x = s.x := rfl
@[simp] theorem State.setRun_pc (v : Run) : (s.setRun v).pc = s.pc := rfl
@[simp] theorem State.setRun_sp (v : Run) : (s.setRun v).sp = s.sp := rfl
@[simp] theorem State.setRun_ov (v : Run) : (s.setRun v).ov = s.ov := rfl
@[simp] theorem State.setRun_skip (v : Run) : (s.setRun v).skip = s.skip := rfl
@[simp] theorem State.setRun_run (v : Run) : (s.setRun v).run = v := rfl
@[simp] theorem State.setRun_mem (v : Run) : (s.setRun v).mem = s.mem := rfl
@[simp] theorem State.setRun_cfg (v : Run) : (s.setRun v).cfg = s.cfg := rfl
@[simp] theorem State.setRun_readMem (v : Run) (k : Word) : (s.setRun v).readMem k = s.readMem k := rfl
@[simp] theorem State.setRun_readReg (v : Run) (m : Fin 8) : (s.setRun v).readReg m = s.readReg m := rfl

/-! ### `advancePc` -/

@[simp] theorem State.advancePc_x : s.advancePc.x = s.x := rfl
@[simp] theorem State.advancePc_pc : s.advancePc.pc = s.pc + 1 := rfl
@[simp] theorem State.advancePc_sp : s.advancePc.sp = s.sp := rfl
@[simp] theorem State.advancePc_ov : s.advancePc.ov = s.ov := rfl
@[simp] theorem State.advancePc_skip : s.advancePc.skip = s.skip := rfl
@[simp] theorem State.advancePc_run : s.advancePc.run = s.run := rfl
@[simp] theorem State.advancePc_mem : s.advancePc.mem = s.mem := rfl
@[simp] theorem State.advancePc_cfg : s.advancePc.cfg = s.cfg := rfl
@[simp] theorem State.advancePc_readMem (k : Word) : s.advancePc.readMem k = s.readMem k := rfl
@[simp] theorem State.advancePc_readReg (m : Fin 8) : s.advancePc.readReg m = s.readReg m := rfl

/-! ### `raise` -/

@[simp] theorem State.raise_x (k : Fault) : (s.raise k).x = s.x := rfl
@[simp] theorem State.raise_pc (k : Fault) : (s.raise k).pc = s.pc := rfl
@[simp] theorem State.raise_sp (k : Fault) : (s.raise k).sp = s.sp := rfl
@[simp] theorem State.raise_ov (k : Fault) : (s.raise k).ov = s.ov := rfl
@[simp] theorem State.raise_skip (k : Fault) : (s.raise k).skip = s.skip := rfl
@[simp] theorem State.raise_run (k : Fault) : (s.raise k).run = .faulted k := rfl
@[simp] theorem State.raise_mem (k : Fault) : (s.raise k).mem = s.mem := rfl
@[simp] theorem State.raise_cfg (k : Fault) : (s.raise k).cfg = s.cfg := rfl
@[simp] theorem State.raise_readMem (f : Fault) (k : Word) : (s.raise f).readMem k = s.readMem k := rfl
@[simp] theorem State.raise_readReg (k : Fault) (m : Fin 8) : (s.raise k).readReg m = s.readReg m := rfl

/-! ### `halt` -/

@[simp] theorem State.halt_x : s.halt.x = s.x := rfl
@[simp] theorem State.halt_pc : s.halt.pc = s.pc := rfl
@[simp] theorem State.halt_sp : s.halt.sp = s.sp := rfl
@[simp] theorem State.halt_ov : s.halt.ov = s.ov := rfl
@[simp] theorem State.halt_skip : s.halt.skip = s.skip := rfl
@[simp] theorem State.halt_run : s.halt.run = .halted := rfl
@[simp] theorem State.halt_mem : s.halt.mem = s.mem := rfl
@[simp] theorem State.halt_cfg : s.halt.cfg = s.cfg := rfl
@[simp] theorem State.halt_readMem (k : Word) : s.halt.readMem k = s.readMem k := rfl
@[simp] theorem State.halt_readReg (m : Fin 8) : s.halt.readReg m = s.readReg m := rfl

/-! ### Reading a register after writing one (R10) -/

@[simp] theorem State.readReg_writeReg_same (n : Fin 8) (v : Word) : (s.writeReg n v).readReg n = v := by
  simp [State.readReg]

theorem State.readReg_writeReg_other (n m : Fin 8) (v : Word) (h : m ≠ n) :
    (s.writeReg n v).readReg m = s.readReg m := by
  have hne : n.val ≠ m.val := fun e => h (Fin.ext e.symm)
  simp [State.readReg, hne]

/-! ### Updates that write back what is there -/

@[simp] theorem State.setSkip_self : s.setSkip s.skip = s := rfl
@[simp] theorem State.setSp_self : s.setSp s.sp = s := rfl

end Sys2Proof.Machine
end

