-- ==== Sys2Proof/Laws/Memory.lean ====
section
/-! SUPPORT. The memory image: every operation keeps the canonical form, a read after a write gives the value written, and
a write leaves every other word alone (R8, R34). -/

namespace Sys2Proof.Machine

/-! ### The canonical form -/

theorem Memory.wfFrom_cons (lo a : Nat) (v : Word) (m : Memory) :
    Memory.wfFrom lo ((a, v) :: m) = true ↔
      lo ≤ a ∧ a < wordCount ∧ v ≠ Memory.unlisted ∧ Memory.wfFrom (a + 1) m = true := by
  simp [Memory.wfFrom, and_assoc]

theorem Memory.wfFrom_of_le {lo hi : Nat} {m : Memory} (h : Memory.wfFrom hi m = true) (le : lo ≤ hi) :
    Memory.wfFrom lo m = true := by
  cases m with
  | nil => rfl
  | cons p m =>
    obtain ⟨a, v⟩ := p
    rw [Memory.wfFrom_cons] at *
    exact ⟨le.trans h.1, h.2⟩

/-- Below the lower bound of a canonical image nothing is listed. -/
theorem Memory.read_below {lo : Nat} {m : Memory} (h : Memory.wfFrom lo m = true) {k : Nat} (hk : k < lo) :
    Memory.read m k = Memory.unlisted := by
  induction m generalizing lo with
  | nil => rfl
  | cons p m ih =>
    obtain ⟨a, v⟩ := p
    rw [Memory.wfFrom_cons] at h
    rw [Memory.read, if_neg (by omega)]
    exact ih h.2.2.2 (by omega)

theorem Memory.wfFrom_write {lo : Nat} {m : Memory} (h : Memory.wfFrom lo m = true) {k : Nat} (hlo : lo ≤ k)
    (hk : k < wordCount) (v : Word) : Memory.wfFrom lo (Memory.write m k v) = true := by
  induction m generalizing lo with
  | nil =>
    rw [Memory.write]
    split
    · rfl
    · rename_i hv; simp [Memory.wfFrom, hlo, hk, hv]
  | cons p m ih =>
    obtain ⟨a, u⟩ := p
    have hm := (Memory.wfFrom_cons _ _ _ _).mp h
    rw [Memory.write]
    split
    · split
      · exact h
      · rename_i hlt hv
        rw [Memory.wfFrom_cons, Memory.wfFrom_cons]
        exact ⟨hlo, hk, hv, by omega, hm.2⟩
    · split
      · rename_i heq
        split
        · exact Memory.wfFrom_of_le hm.2.2.2 (by omega)
        · rename_i hv
          rw [Memory.wfFrom_cons]
          exact ⟨hlo, hk, hv, heq ▸ hm.2.2.2⟩
      · rw [Memory.wfFrom_cons]
        exact ⟨hm.1, hm.2.1, hm.2.2.1, ih hm.2.2.2 (by omega)⟩

/-- A write at an address of the machine keeps the canonical form. -/
theorem Memory.wf_write {m : Memory} (h : m.wf = true) (k v : Word) : (Memory.write m k.toNat v).wf = true :=
  Memory.wfFrom_write h (Nat.zero_le _) k.isLt v

theorem Memory.wfFrom_ofWords (k : Nat) (ws : List Word) (h : k + ws.length ≤ wordCount) :
    Memory.wfFrom k (Memory.ofWords k ws) = true := by
  induction ws generalizing k with
  | nil => rfl
  | cons w ws ih =>
    have hrest := ih (k + 1) (by simp at h; omega)
    rw [Memory.ofWords]
    split
    · exact Memory.wfFrom_of_le hrest (by omega)
    · rename_i hw
      rw [Memory.wfFrom_cons]
      exact ⟨le_refl _, by simp at h; omega, hw, hrest⟩

/-- The image of a stream that fits is canonical. -/
theorem Memory.wf_ofWords (ws : List Word) (h : ws.length ≤ wordCount) : (Memory.ofWords 0 ws).wf = true :=
  Memory.wfFrom_ofWords 0 ws (by omega)

/-- The image after reset, for any instance of the parameters, is canonical. -/
theorem State.resetWith_wf (cfg : Config) (p : ResetParams) : (State.resetWith cfg p).mem.wf = true := rfl

/-! ### Reading -/

theorem Memory.read_write_other (m : Memory) (k j : Nat) (v : Word) (h : j ≠ k) :
    Memory.read (Memory.write m k v) j = Memory.read m j := by
  induction m with
  | nil =>
    rw [Memory.write]
    split
    · rfl
    · simp [Memory.read, h.symm]
  | cons p m ih =>
    obtain ⟨a, u⟩ := p
    rw [Memory.write]
    split
    · split
      · rfl
      · rw [Memory.read, if_neg h.symm]
    · split
      · rename_i heq
        split
        · rw [Memory.read, if_neg (by omega)]
        · rw [Memory.read, Memory.read, if_neg (by omega), if_neg (by omega)]
      · rw [Memory.read, Memory.read, ih]

theorem Memory.read_write_same_from {lo : Nat} {m : Memory} (h : Memory.wfFrom lo m = true) (k : Nat) (v : Word) :
    Memory.read (Memory.write m k v) k = v := by
  induction m generalizing lo with
  | nil =>
    rw [Memory.write]
    split
    · rename_i hv; exact hv.symm
    · simp [Memory.read]
  | cons p m ih =>
    obtain ⟨a, u⟩ := p
    have hm := (Memory.wfFrom_cons _ _ _ _).mp h
    rw [Memory.write]
    split
    · split
      · rename_i hlt hv
        rw [Memory.read, if_neg (by omega), hv]
        exact Memory.read_below hm.2.2.2 (by omega)
      · rw [Memory.read, if_pos rfl]
    · split
      · split
        · rename_i heq hv
          rw [hv]
          exact Memory.read_below hm.2.2.2 (by omega)
        · rw [Memory.read, if_pos rfl]
      · rw [Memory.read, if_neg (by omega), ih hm.2.2.2]

/-- The stream's word at each of its addresses, the unlisted value past its end (R180). -/
theorem Memory.read_ofWords (k : Nat) (ws : List Word) (j : Nat) :
    Memory.read (Memory.ofWords k ws) j = if j < k then Memory.unlisted else ws.getD (j - k) Memory.unlisted := by
  induction ws generalizing k with
  | nil => simp [Memory.ofWords, Memory.read]
  | cons w ws ih =>
    have tail : ∀ i, k < i → (w :: ws).getD (i - k) Memory.unlisted = ws.getD (i - (k + 1)) Memory.unlisted := by
      intro i hi
      rw [show i - k = (i - (k + 1)) + 1 by omega]
      rfl
    rcases lt_trichotomy j k with hj | rfl | hj
    · rw [Memory.ofWords]
      split <;> simp [Memory.read, ih, hj.ne', show j < k + 1 by omega]
    · rw [Memory.ofWords]
      split
      · rename_i hw; simp [ih, hw]
      · simp [Memory.read]
    · rw [Memory.ofWords, tail j hj]
      split <;> simp [Memory.read, ih, hj.ne, show ¬ j < k by omega, show ¬ j < k + 1 by omega]

/-! ### The same through a state -/

theorem State.readMem_writeMem_same (s : State) (h : s.mem.wf = true) (k v : Word) :
    (s.writeMem k v).readMem k = v :=
  Memory.read_write_same_from h _ v

theorem State.readMem_writeMem_other (s : State) (k j v : Word) (h : j ≠ k) :
    (s.writeMem k v).readMem j = s.readMem j :=
  Memory.read_write_other _ _ _ _ fun e => h (BitVec.eq_of_toNat_eq e)

end Sys2Proof.Machine
end

