-- ==== Sys2Proof/Laws/Operands.lean ====
section
/-! SUPPORT. What the resolver does to the state, what the location it returns is, and what reading and writing a location
do. -/

namespace Sys2Proof.Machine

/-! ### The resolver -/

/-- Resolving an operand changes only `pc` and `sp` (R93), by the words it consumes and its stack move. -/
theorem resolve_state (o : Operand) (s : State) :
    (resolve o s).state =
      { s with pc := s.pc + BitVec.ofNat 16 o.extraWords, sp := s.sp + o.spMove } := by
  cases o <;>
    simp [resolve, Operand.extraWords, Operand.consumesWord, Operand.spMove, State.advancePc, State.setPc, State.setSp,
      BitVec.sub_eq_add_neg]

/-- Only the short literals resolve into the literal pool. -/
theorem resolve_isLit (o : Operand) (s : State) : (resolve o s).loc.isLit = o.isLit := by
  cases o <;> rfl

/-- An operand that names a register directly, SP, PC or OV is the one that resolves to that place. -/
theorem resolve_eq_reg (o : Operand) (s : State) (n : Fin 8) : (resolve o s).loc = .reg n ↔ o = .reg n := by
  cases o <;> simp [resolve]

theorem resolve_eq_sp (o : Operand) (s : State) : (resolve o s).loc = .sp ↔ o = .sp := by
  cases o <;> simp [resolve]

theorem resolve_eq_pc (o : Operand) (s : State) : (resolve o s).loc = .pc ↔ o = .pc := by
  cases o <;> simp [resolve]

theorem resolve_eq_ov (o : Operand) (s : State) : (resolve o s).loc = .ov ↔ o = .ov := by
  cases o <;> simp [resolve]

theorem resolveBoth_dst (a b : Operand) (s : State) : (resolveBoth a b s).dst = (resolve a s).loc := rfl

theorem resolveBoth_src (a b : Operand) (s : State) :
    (resolveBoth a b s).src = (resolve b (resolve a s).state).loc := rfl

/-- Resolving both operands changes only `pc` and `sp`. -/
theorem resolveBoth_state (a b : Operand) (s : State) :
    (resolveBoth a b s).state =
      { s with
        pc := s.pc + BitVec.ofNat 16 (a.extraWords + b.extraWords), sp := s.sp + (a.spMove + b.spMove) } := by
  simp [resolveBoth, resolve_state, BitVec.ofNat_add, BitVec.add_assoc]

/-! ### Locations -/

/-- A write leaves the run state alone unless the location is in the literal pool. -/
theorem State.locWrite_run (s : State) (l : Loc) (v : Word) (h : l.isLit = false) : (s.locWrite l v).run = s.run := by
  cases l <;> first | rfl | cases h

@[simp] theorem State.locWrite_skip (s : State) (l : Loc) (v : Word) : (s.locWrite l v).skip = s.skip := by
  cases l <;> rfl

@[simp] theorem State.locWrite_cfg (s : State) (l : Loc) (v : Word) : (s.locWrite l v).cfg = s.cfg := by
  cases l <;> rfl

theorem State.locWrite_pc (s : State) (l : Loc) (v : Word) (h : l ≠ .pc) : (s.locWrite l v).pc = s.pc := by
  cases l <;> first | rfl | exact absurd rfl h

theorem State.locWrite_sp (s : State) (l : Loc) (v : Word) (h : l ≠ .sp) : (s.locWrite l v).sp = s.sp := by
  cases l <;> first | rfl | exact absurd rfl h

theorem State.locWrite_ov (s : State) (l : Loc) (v : Word) (h : l ≠ .ov) : (s.locWrite l v).ov = s.ov := by
  cases l <;> first | rfl | exact absurd rfl h

theorem State.locWrite_readReg (s : State) (l : Loc) (v : Word) (n : Fin 8) (h : l ≠ .reg n) :
    (s.locWrite l v).readReg n = s.readReg n := by
  cases l with
  | reg m => exact s.readReg_writeReg_other m n v fun e => h (by rw [e])
  | mem | sp | pc | ov | lit => rfl

theorem State.locWrite_readMem (s : State) (l : Loc) (v k : Word) (h : l ≠ .mem k) :
    (s.locWrite l v).readMem k = s.readMem k := by
  cases l with
  | mem j => exact s.readMem_writeMem_other j k v fun e => h (by rw [e])
  | reg | sp | pc | ov | lit => rfl

/-- Every write through a location keeps the canonical form of memory. -/
theorem State.locWrite_wf (s : State) (l : Loc) (v : Word) (h : s.mem.wf = true) : (s.locWrite l v).mem.wf = true := by
  cases l with
  | mem k => exact Memory.wf_write h k v
  | reg | sp | pc | ov | lit => exact h

end Sys2Proof.Machine
end

