-- ==== Sys2Proof/Laws/Results.lean ====
section
/-! SUPPORT. Each computed result as one operation on words: the narrowed exact integer of R102 to R104 and R121, the quotient and
remainder of R105 and R106, the right shift of R122. -/

namespace Sys2Proof.Machine

variable (d v : Word)

/-- Narrowing a natural number is `BitVec.ofNat`. -/
theorem trunc16_natCast (n : Nat) : trunc16 n = BitVec.ofNat 16 n := by
  simp [trunc16]

theorem trunc16_trueSum : trunc16 (trueSum d v) = d + v := by
  apply BitVec.eq_of_toNat_eq
  simp [trunc16, trueSum]
  omega

theorem trunc16_trueDifference : trunc16 (trueDifference d v) = d - v := by
  apply BitVec.eq_of_toNat_eq
  simp [trunc16, trueDifference, BitVec.toNat_sub]
  omega

theorem trunc16_trueProduct : trunc16 (trueProduct d v) = d * v := by
  rw [trueProduct, ← Nat.cast_mul, trunc16_natCast]
  exact BitVec.eq_of_toNat_eq (by simp)

theorem trunc16_trueShift : trunc16 (trueShift d v) = d <<< v.toNat := by
  rw [show trueShift d v = ((d.toNat * 2 ^ v.toNat : Nat) : Int) by simp [trueShift], trunc16_natCast]
  exact BitVec.eq_of_toNat_eq (by simp [Nat.shiftLeft_eq])

theorem quotient_eq : quotient d v = if v = 0 then 0 else d / v := by
  unfold quotient
  split
  · rfl
  · exact BitVec.eq_of_toNat_eq (by simp; exact lt_of_le_of_lt (Nat.div_le_self _ _) d.isLt)

theorem remainder_eq : remainder d v = if v = 0 then 0 else d % v := by
  unfold remainder
  split
  · rfl
  · exact BitVec.eq_of_toNat_eq (by simp; exact lt_of_le_of_lt (Nat.mod_le _ _) d.isLt)

theorem shiftedRight_eq : shiftedRight d v = d >>> v.toNat := by
  apply BitVec.eq_of_toNat_eq
  simp [shiftedRight, Nat.shiftRight_eq_div_pow]
  exact lt_of_le_of_lt (Nat.div_le_self _ _) d.isLt

end Sys2Proof.Machine
end

