-- ==== Sys2Proof/Laws/Exec.lean ====
section
/-! SUPPORT. Everything an instruction can do, said once per shared phase: what `exec` answers for a writing instruction, for
a conditional and for JSR, skipped or not. Later proofs cite these and do not unfold the phases. -/

namespace Sys2Proof.Machine

/-! ### The shared phases -/

theorem execWriting_skipped {a b : Operand} {alu : Word → Word → AluResult} {s : State} (h : s.skip = true) :
    execWriting a b alu s = .next ((resolveBoth a b s).state.setSkip false) := by
  simp [execWriting, unlessSkipped, resolveBoth_state, h]

theorem execWriting_literal {a b : Operand} {alu : Word → Word → AluResult} {s : State} (h : s.skip = false)
    (ha : a.isLit = true) :
    execWriting a b alu s = .next ((resolveBoth a b s).state.raise .illegalWriteTarget) := by
  simp [execWriting, unlessSkipped, resolveBoth_state, h, resolveBoth_dst, resolve_isLit, ha]

theorem execWriting_commits {a b : Operand} {alu : Word → Word → AluResult} {s : State} (h : s.skip = false)
    (ha : a.isLit = false) :
    execWriting a b alu s =
      .next ((resolveBoth a b s).state.commit (resolveBoth a b s).dst
        (alu ((resolveBoth a b s).state.locRead (resolveBoth a b s).dst)
          ((resolveBoth a b s).state.locRead (resolveBoth a b s).src))) := by
  simp [execWriting, unlessSkipped, resolveBoth_state, h, resolveBoth_dst, resolve_isLit, ha]

theorem execConditional_skipped {a b : Operand} {condition : Word → Word → Bool} {s : State} (h : s.skip = true) :
    execConditional a b condition s = .next ((resolveBoth a b s).state.setSkip false) := by
  simp [execConditional, unlessSkipped, resolveBoth_state, h]

/-- A conditional that executes leaves in `skip` whether its condition failed. -/
theorem execConditional_arms {a b : Operand} {condition : Word → Word → Bool} {s : State} (h : s.skip = false) :
    execConditional a b condition s =
      .next ((resolveBoth a b s).state.setSkip
        !condition ((resolveBoth a b s).state.locRead (resolveBoth a b s).dst)
          ((resolveBoth a b s).state.locRead (resolveBoth a b s).src)) := by
  cases hc : condition ((resolveBoth a b s).state.locRead (resolveBoth a b s).dst)
      ((resolveBoth a b s).state.locRead (resolveBoth a b s).src) <;>
    simp_all [execConditional, unlessSkipped, resolveBoth_state, State.setSkip]

theorem execJsr_skipped {b : Operand} {s : State} (h : s.skip = true) :
    execJsr b s = .next ((resolve b s).state.setSkip false) := by
  simp [execJsr, unlessSkipped, resolve_state, h]

theorem execJsr_calls {b : Operand} {s : State} (h : s.skip = false) :
    execJsr b s =
      .next (((resolve b s).state.push (resolve b s).state.pc).setPc ((resolve b s).state.locRead (resolve b s).loc)) := by
  simp [execJsr, unlessSkipped, resolve_state, h]

/-! ### What a commit does (R93, R94) -/

/-- A commit is the write to the destination, with `ov` then replaced if the instruction sets it. -/
theorem State.commit_eq (s : State) (l : Loc) (r : AluResult) :
    s.commit l r = { s.locWrite l r.result with ov := r.ov.getD (s.locWrite l r.result).ov } := by
  obtain ⟨v, _ | o⟩ := r <;> rfl

theorem State.commit_run (s : State) (l : Loc) (r : AluResult) (h : l.isLit = false) : (s.commit l r).run = s.run := by
  rw [State.commit_eq]
  exact s.locWrite_run l _ h

@[simp] theorem State.commit_skip (s : State) (l : Loc) (r : AluResult) : (s.commit l r).skip = s.skip := by
  simp [State.commit_eq]

@[simp] theorem State.commit_cfg (s : State) (l : Loc) (r : AluResult) : (s.commit l r).cfg = s.cfg := by
  simp [State.commit_eq]

/-! ### Each instruction as its phase -/

section

variable (a b : Operand) (s : State)

theorem exec_set : exec (.set a b) s = execWriting a b (fun _ v => .plain v) s := rfl
theorem exec_add : exec (.add a b) s = execWriting a b (fun d v => .exact (trueSum d v)) s := rfl
theorem exec_sub : exec (.sub a b) s = execWriting a b (fun d v => .exact (trueDifference d v)) s := rfl
theorem exec_mul : exec (.mul a b) s = execWriting a b (fun d v => .exact (trueProduct d v)) s := rfl
theorem exec_div : exec (.div a b) s = execWriting a b (fun d v => ⟨quotient d v, some (ovDiv d v)⟩) s := rfl
theorem exec_mod : exec (.mod a b) s = execWriting a b (fun d v => .plain (remainder d v)) s := rfl
theorem exec_shl : exec (.shl a b) s = execWriting a b (fun d v => .exact (trueShift d v)) s := rfl
theorem exec_shr : exec (.shr a b) s = execWriting a b (fun d v => ⟨shiftedRight d v, some (ovShr d v)⟩) s := rfl
theorem exec_and : exec (.and a b) s = execWriting a b (fun d v => .plain (d &&& v)) s := rfl
theorem exec_bor : exec (.bor a b) s = execWriting a b (fun d v => .plain (d ||| v)) s := rfl
theorem exec_xor : exec (.xor a b) s = execWriting a b (fun d v => .plain (d ^^^ v)) s := rfl
theorem exec_ife : exec (.ife a b) s = execConditional a b (fun d v => d == v) s := rfl
theorem exec_ifn : exec (.ifn a b) s = execConditional a b (fun d v => d != v) s := rfl
theorem exec_ifg : exec (.ifg a b) s = execConditional a b (fun d v => v.ult d) s := rfl
theorem exec_ifb : exec (.ifb a b) s = execConditional a b (fun d v => d &&& v != 0) s := rfl
theorem exec_jsr : exec (.jsr b) s = execJsr b s := rfl

end

/-! ### Every instruction is one of three shapes -/

/-- A writing instruction is the writing phase with some computation, whose result is the one its rule gives and which sets `ov`
exactly if the instruction does. -/
theorem exec_writing {i : Instr} (h : i.isWriting = true) :
    ∃ a alu, i.operandA = some a ∧
      (∀ d v, (alu d v).ov.isSome = i.setsOv ∧ i.result d v = some (alu d v).result) ∧
      ∀ s, exec i s = execWriting a i.operandB alu s := by
  cases i with
  | set a b => exact ⟨a, _, rfl, fun d v => ⟨rfl, rfl⟩, exec_set a b⟩
  | add a b => exact ⟨a, _, rfl, fun d v => ⟨rfl, congrArg some (trunc16_trueSum d v).symm⟩, exec_add a b⟩
  | sub a b => exact ⟨a, _, rfl, fun d v => ⟨rfl, congrArg some (trunc16_trueDifference d v).symm⟩, exec_sub a b⟩
  | mul a b => exact ⟨a, _, rfl, fun d v => ⟨rfl, congrArg some (trunc16_trueProduct d v).symm⟩, exec_mul a b⟩
  | div a b => exact ⟨a, _, rfl, fun d v => ⟨rfl, congrArg some (quotient_eq d v).symm⟩, exec_div a b⟩
  | mod a b => exact ⟨a, _, rfl, fun d v => ⟨rfl, congrArg some (remainder_eq d v).symm⟩, exec_mod a b⟩
  | shl a b => exact ⟨a, _, rfl, fun d v => ⟨rfl, congrArg some (trunc16_trueShift d v).symm⟩, exec_shl a b⟩
  | shr a b => exact ⟨a, _, rfl, fun d v => ⟨rfl, congrArg some (shiftedRight_eq d v).symm⟩, exec_shr a b⟩
  | and a b => exact ⟨a, _, rfl, fun d v => ⟨rfl, rfl⟩, exec_and a b⟩
  | bor a b => exact ⟨a, _, rfl, fun d v => ⟨rfl, rfl⟩, exec_bor a b⟩
  | xor a b => exact ⟨a, _, rfl, fun d v => ⟨rfl, rfl⟩, exec_xor a b⟩
  | ife | ifn | ifg | ifb | jsr => cases h

/-- A conditional is the conditional phase with some condition. -/
theorem exec_conditional {i : Instr} (h : i.isConditional = true) :
    ∃ a condition, i.operandA = some a ∧ ∀ s, exec i s = execConditional a i.operandB condition s := by
  cases i with
  | ife a b => exact ⟨a, _, rfl, exec_ife a b⟩
  | ifn a b => exact ⟨a, _, rfl, exec_ifn a b⟩
  | ifg a b => exact ⟨a, _, rfl, exec_ifg a b⟩
  | ifb a b => exact ⟨a, _, rfl, exec_ifb a b⟩
  | set | add | sub | mul | div | mod | shl | shr | and | bor | xor | jsr => cases h

/-- The three shapes are all there are. -/
theorem instr_shape (i : Instr) : i.isWriting = true ∨ i.isConditional = true ∨ ∃ b, i = .jsr b := by
  cases i <;> simp [Instr.isWriting, Instr.isConditional]

/-- Under a pending skip every instruction only resolves its operands and clears the flag (R77, R152). -/
theorem exec_skipped (i : Instr) {s : State} (h : s.skip = true) :
    exec i s =
      .next { s with pc := s.pc + BitVec.ofNat 16 i.extraWords, sp := s.sp + i.spMove, skip := false } := by
  rcases instr_shape i with hw | hc | ⟨b, rfl⟩
  · obtain ⟨a, alu, ha, -, he⟩ := exec_writing hw
    rw [he, execWriting_skipped h, resolveBoth_state]
    simp [Instr.extraWords, Instr.spMove, ha, State.setSkip]
  · obtain ⟨a, condition, ha, he⟩ := exec_conditional hc
    rw [he, execConditional_skipped h, resolveBoth_state]
    simp [Instr.extraWords, Instr.spMove, ha, State.setSkip]
  · rw [exec_jsr, execJsr_skipped h, resolve_state]
    simp [Instr.extraWords, Instr.spMove, Instr.operandA, Instr.operandB, State.setSkip]

/-! ### Everything `exec` can answer -/

/-- The four things a writing instruction, a conditional or JSR can do (R77, R93, R151, R162). -/
theorem exec_cases (i : Instr) (s : State) :
    (s.skip = true ∧
      exec i s =
        .next { s with pc := s.pc + BitVec.ofNat 16 i.extraWords, sp := s.sp + i.spMove, skip := false }) ∨
    (s.skip = false ∧ i.isWriting = true ∧ ∃ a, i.operandA = some a ∧
      ((a.isLit = true ∧ exec i s = .next ((resolveBoth a i.operandB s).state.raise .illegalWriteTarget)) ∨
        (a.isLit = false ∧ ∃ r : AluResult, (r.ov.isSome = i.setsOv ∧ i.storedValue s = some r.result) ∧
          exec i s = .next ((resolveBoth a i.operandB s).state.commit (resolveBoth a i.operandB s).dst r)))) ∨
    (s.skip = false ∧ i.isConditional = true ∧ ∃ a armed, i.operandA = some a ∧
      exec i s = .next ((resolveBoth a i.operandB s).state.setSkip armed)) ∨
    (s.skip = false ∧ ∃ b, i = .jsr b ∧
      exec i s =
        .next (((resolve b s).state.push (resolve b s).state.pc).setPc
          ((resolve b s).state.locRead (resolve b s).loc))) := by
  cases hs : s.skip with
  | true => exact .inl ⟨rfl, exec_skipped i hs⟩
  | false =>
    rcases instr_shape i with hw | hc | ⟨b, rfl⟩
    · obtain ⟨a, alu, ha, hov, he⟩ := exec_writing hw
      refine .inr (.inl ⟨rfl, hw, a, ha, ?_⟩)
      cases hl : a.isLit with
      | true => exact .inl ⟨rfl, by rw [he, execWriting_literal hs hl]⟩
      | false =>
        exact .inr ⟨rfl, _, ⟨(hov _ _).1, by rw [Instr.storedValue, ha]; exact (hov _ _).2⟩,
          by rw [he, execWriting_commits hs hl]⟩
    · obtain ⟨a, condition, ha, he⟩ := exec_conditional hc
      exact .inr (.inr (.inl ⟨rfl, hc, a, _, ha, by rw [he, execConditional_arms hs]⟩))
    · exact .inr (.inr (.inr ⟨rfl, b, rfl, execJsr_calls hs⟩))

end Sys2Proof.Machine
end

