-- ==== Sys2Proof/Laws/PerInstr.lean ====
section
/-! SUPPORT. Facts of every instruction as syntax, one lemma per constructor. `FirstWordFields`: the first word of an
instruction carries its opcode in bits 3..0 and its `b` operand's code in bits 15..10 (R50, R51). -/

/-- The first word carries the opcode and the code of the `b` operand. -/
def Sys2Proof.Laws.FirstWordFields.Statement (i : Sys2Proof.Instr) : Prop :=
  Sys2Proof.opField (Sys2Proof.encodeFirst i) = i.opcode ∧
    Sys2Proof.bField (Sys2Proof.encodeFirst i) = Sys2Proof.encodeOperand i.operandB

theorem Sys2Proof.Laws.FirstWordFields.set (a b : Sys2Proof.Operand) :
    Sys2Proof.Laws.FirstWordFields.Statement (Sys2Proof.Instr.set a b) :=
  ⟨Sys2Proof.opField_firstWord _ _ _, Sys2Proof.bField_firstWord _ _ _⟩

theorem Sys2Proof.Laws.FirstWordFields.add (a b : Sys2Proof.Operand) :
    Sys2Proof.Laws.FirstWordFields.Statement (Sys2Proof.Instr.add a b) :=
  ⟨Sys2Proof.opField_firstWord _ _ _, Sys2Proof.bField_firstWord _ _ _⟩

theorem Sys2Proof.Laws.FirstWordFields.sub (a b : Sys2Proof.Operand) :
    Sys2Proof.Laws.FirstWordFields.Statement (Sys2Proof.Instr.sub a b) :=
  ⟨Sys2Proof.opField_firstWord _ _ _, Sys2Proof.bField_firstWord _ _ _⟩

theorem Sys2Proof.Laws.FirstWordFields.mul (a b : Sys2Proof.Operand) :
    Sys2Proof.Laws.FirstWordFields.Statement (Sys2Proof.Instr.mul a b) :=
  ⟨Sys2Proof.opField_firstWord _ _ _, Sys2Proof.bField_firstWord _ _ _⟩

theorem Sys2Proof.Laws.FirstWordFields.div (a b : Sys2Proof.Operand) :
    Sys2Proof.Laws.FirstWordFields.Statement (Sys2Proof.Instr.div a b) :=
  ⟨Sys2Proof.opField_firstWord _ _ _, Sys2Proof.bField_firstWord _ _ _⟩

theorem Sys2Proof.Laws.FirstWordFields.mod (a b : Sys2Proof.Operand) :
    Sys2Proof.Laws.FirstWordFields.Statement (Sys2Proof.Instr.mod a b) :=
  ⟨Sys2Proof.opField_firstWord _ _ _, Sys2Proof.bField_firstWord _ _ _⟩

theorem Sys2Proof.Laws.FirstWordFields.shl (a b : Sys2Proof.Operand) :
    Sys2Proof.Laws.FirstWordFields.Statement (Sys2Proof.Instr.shl a b) :=
  ⟨Sys2Proof.opField_firstWord _ _ _, Sys2Proof.bField_firstWord _ _ _⟩

theorem Sys2Proof.Laws.FirstWordFields.shr (a b : Sys2Proof.Operand) :
    Sys2Proof.Laws.FirstWordFields.Statement (Sys2Proof.Instr.shr a b) :=
  ⟨Sys2Proof.opField_firstWord _ _ _, Sys2Proof.bField_firstWord _ _ _⟩

theorem Sys2Proof.Laws.FirstWordFields.and (a b : Sys2Proof.Operand) :
    Sys2Proof.Laws.FirstWordFields.Statement (Sys2Proof.Instr.and a b) :=
  ⟨Sys2Proof.opField_firstWord _ _ _, Sys2Proof.bField_firstWord _ _ _⟩

theorem Sys2Proof.Laws.FirstWordFields.bor (a b : Sys2Proof.Operand) :
    Sys2Proof.Laws.FirstWordFields.Statement (Sys2Proof.Instr.bor a b) :=
  ⟨Sys2Proof.opField_firstWord _ _ _, Sys2Proof.bField_firstWord _ _ _⟩

theorem Sys2Proof.Laws.FirstWordFields.xor (a b : Sys2Proof.Operand) :
    Sys2Proof.Laws.FirstWordFields.Statement (Sys2Proof.Instr.xor a b) :=
  ⟨Sys2Proof.opField_firstWord _ _ _, Sys2Proof.bField_firstWord _ _ _⟩

theorem Sys2Proof.Laws.FirstWordFields.ife (a b : Sys2Proof.Operand) :
    Sys2Proof.Laws.FirstWordFields.Statement (Sys2Proof.Instr.ife a b) :=
  ⟨Sys2Proof.opField_firstWord _ _ _, Sys2Proof.bField_firstWord _ _ _⟩

theorem Sys2Proof.Laws.FirstWordFields.ifn (a b : Sys2Proof.Operand) :
    Sys2Proof.Laws.FirstWordFields.Statement (Sys2Proof.Instr.ifn a b) :=
  ⟨Sys2Proof.opField_firstWord _ _ _, Sys2Proof.bField_firstWord _ _ _⟩

theorem Sys2Proof.Laws.FirstWordFields.ifg (a b : Sys2Proof.Operand) :
    Sys2Proof.Laws.FirstWordFields.Statement (Sys2Proof.Instr.ifg a b) :=
  ⟨Sys2Proof.opField_firstWord _ _ _, Sys2Proof.bField_firstWord _ _ _⟩

theorem Sys2Proof.Laws.FirstWordFields.ifb (a b : Sys2Proof.Operand) :
    Sys2Proof.Laws.FirstWordFields.Statement (Sys2Proof.Instr.ifb a b) :=
  ⟨Sys2Proof.opField_firstWord _ _ _, Sys2Proof.bField_firstWord _ _ _⟩

theorem Sys2Proof.Laws.FirstWordFields.jsr (b : Sys2Proof.Operand) :
    Sys2Proof.Laws.FirstWordFields.Statement (Sys2Proof.Instr.jsr b) :=
  ⟨Sys2Proof.opField_firstWord _ _ _, Sys2Proof.bField_firstWord _ _ _⟩
end

