-- ==== Sys2Proof/Laws/Step.lean ====
section
/-! SUPPORT. Everything a step can do, said once (R70, R168). -/

namespace Sys2Proof.Machine

/-! ### Entering an instruction (R74) -/

section

variable (s : State)

@[simp] theorem State.enterInstr_x : s.enterInstr.x = s.x := rfl
@[simp] theorem State.enterInstr_pc : s.enterInstr.pc = s.pc + 1 := rfl
@[simp] theorem State.enterInstr_sp : s.enterInstr.sp = s.sp := rfl
@[simp] theorem State.enterInstr_ov : s.enterInstr.ov = s.ov := rfl
@[simp] theorem State.enterInstr_skip : s.enterInstr.skip = s.skip := rfl
@[simp] theorem State.enterInstr_run : s.enterInstr.run = s.run := rfl
@[simp] theorem State.enterInstr_mem : s.enterInstr.mem = s.mem := rfl
@[simp] theorem State.enterInstr_cfg : s.enterInstr.cfg = s.cfg := rfl
@[simp] theorem State.enterInstr_readMem (k : Word) : s.enterInstr.readMem k = s.readMem k := rfl
@[simp] theorem State.enterInstr_readReg (n : Fin 8) : s.enterInstr.readReg n = s.readReg n := rfl

end

/-! ### The ends of a step -/

/-- The four ends of a step, in the order of the tests of R70. -/
theorem step_cases {s t : State} (h : step s = .next t) :
    (s.run ≠ .running ∧ t = s) ∨
    (s.run = .running ∧ s.fetchWord = s.cfg.haltSentinel ∧ t = s.halt) ∨
    (s.run = .running ∧ s.fetchWord ≠ s.cfg.haltSentinel ∧ (∃ e, decodeFirst s.fetchWord = .error e) ∧
      t = s.illegalOpcode) ∨
    (s.run = .running ∧ s.fetchWord ≠ s.cfg.haltSentinel ∧
      ∃ i, decodeFirst s.fetchWord = .ok i ∧ exec i s.enterInstr = .next t) := by
  unfold step State.fetch at h
  cases hr : s.run with
  | halted | faulted k =>
    simp only [hr] at h
    cases h
    exact .inl ⟨by simp, rfl⟩
  | running =>
    simp only [hr] at h
    by_cases hw : s.fetchWord = s.cfg.haltSentinel
    · rw [if_pos hw] at h
      cases h
      exact .inr (.inl ⟨rfl, hw, rfl⟩)
    · rw [if_neg hw] at h
      cases hd : decodeFirst s.fetchWord with
      | error e =>
        simp only [hd] at h
        cases h
        exact .inr (.inr (.inl ⟨rfl, hw, ⟨e, rfl⟩, rfl⟩))
      | ok i =>
        simp only [hd] at h
        exact .inr (.inr (.inr ⟨rfl, hw, i, rfl, h⟩))

/-- Writing words changes neither the registers nor the parameters; it keeps the canonical form of memory. -/
theorem State.writeWords_wf (ws : List Word) (s : State) (a : Word) (h : s.mem.wf = true) :
    (s.writeWords a ws).mem.wf = true := by
  induction ws generalizing s a with
  | nil => exact h
  | cons w ws ih => exact ih _ _ (Memory.wf_write h a w)

theorem State.writeWords_pc (ws : List Word) (s : State) (a : Word) : (s.writeWords a ws).pc = s.pc := by
  induction ws generalizing s a with
  | nil => rfl
  | cons w ws ih => exact ih _ _

end Sys2Proof.Machine
end

