-- ==== Sys2Proof/Tests/Slice0.lean ====
section
/-! SUPPORT. The model's own tests: decoding of words written out from R50 to R56, the well-formedness check, one or two single
steps per instruction with results from spec/95_test_vectors.md or the rules' examples, the fixed names of the host, and for every
statement with hypotheses a witness that meets them. -/

namespace Sys2Proof.Tests

open Sys2Proof.Machine

/-! ### Helpers -/

/-- The start state of the vectors of spec/95_test_vectors.md 2.3 with the instruction's words at 0x0010 and registers A, B. -/
def start (words : List Word) (a b : Word) : State :=
  ({ x := #v[a, b, 0, 0, 0, 0, 0, 0], pc := 0x0010, sp := 0x0100, ov := 0xBEEF, skip := false, run := .running,
     mem := [], cfg := { haltSentinel := 0xFFF0 } } : State).writeWords 0x0010 words

/-- The state a step answers; the start of no test. -/
def after : Host.Outcome State Fault Refusal → State
  | .next t => t
  | .fault _ | .refused _ => State.reset

/-- The state after one step from `start`. -/
def run1 (words : List Word) (a b : Word) : State := after (step (start words a b))

/-! ### Decoding: op in bits 3..0, a in bits 9..4, b in bits 15..10 -/

theorem test_decode_set : decodeFirst 0b0111100111100001 = .ok (.set .atNext .atNext) := by decide
theorem test_decode_add : decodeFirst 0b0110000110010010 = .ok (.add .peek .pop) := by decide
theorem test_decode_sub : decodeFirst 0b1000010111000011 = .ok (.sub .pc (.lit 1)) := by decide
theorem test_decode_mul : decodeFirst 0b0111010111010100 = .ok (.mul .ov .ov) := by decide
theorem test_decode_div : decodeFirst 0b0000010000000101 = .ok (.div (.reg 0) (.reg 1)) := by decide
theorem test_decode_mod : decodeFirst 0b0111110011110110 = .ok (.mod (.atReg 7) .next) := by decide
theorem test_decode_shl : decodeFirst 0b1111110110110111 = .ok (.shl .sp (.lit 31)) := by decide
theorem test_decode_shr : decodeFirst 0b0101110001111000 = .ok (.shr (.reg 7) (.atNextPlusReg 7)) := by decide
theorem test_decode_and : decodeFirst 0b0010000100001001 = .ok (.and (.atNextPlusReg 0) (.atReg 0)) := by decide
theorem test_decode_bor : decodeFirst 0b1000000000001010 = .ok (.bor (.reg 0) (.lit 0)) := by decide
theorem test_decode_xor : decodeFirst 0b0110101000001011 = .ok (.xor (.lit 0) .push) := by decide
theorem test_decode_ife : decodeFirst 0b0110100110001100 = .ok (.ife .pop .push) := by decide
theorem test_decode_ifn : decodeFirst 0b1000110111101101 = .ok (.ifn .atNext (.lit 3)) := by decide
theorem test_decode_ifg : decodeFirst 0b0000010000101110 = .ok (.ifg (.reg 2) (.reg 1)) := by decide
theorem test_decode_ifb : decodeFirst 0b0000010000001111 = .ok (.ifb (.reg 0) (.reg 1)) := by decide
theorem test_decode_jsr : decodeFirst 0b0111110000010000 = .ok (.jsr .next) := by decide

theorem test_decode_reserved_zero : decodeFirst 0x0000 = .error (.reservedExtended 0) := by decide
theorem test_decode_reserved_top : decodeFirst 0xFFF0 = .error (.reservedExtended 0x3F) := by decide

/-- The operand codes at the edges of every range of R52. -/
theorem test_operand_code_edges :
    [0x00, 0x07, 0x08, 0x0F, 0x10, 0x17, 0x18, 0x19, 0x1A, 0x1B, 0x1C, 0x1D, 0x1E, 0x1F, 0x20, 0x3F].map
        (fun c => decodeOperand c) =
      [.reg 0, .reg 7, .atReg 0, .atReg 7, .atNextPlusReg 0, .atNextPlusReg 7, .pop, .peek, .push, .sp, .pc, .ov,
        .atNext, .next, .lit 0, .lit 31] := by decide

theorem test_decode_stream :
    decode [0x79E1, 0x1000, 0x2000, 0x0011] = .ok (⟨.set .atNext .atNext, [0x1000, 0x2000]⟩, [0x0011]) := by decide
theorem test_decode_stream_empty : decode [] = .error .noWord := by decide
theorem test_decode_stream_cut_short : decode [0x79E1, 0x1000] = .error .missingNextWord := by decide

/-! ### Well-formedness: too few next words, and too many, are refused -/

theorem test_wellFormed_accepts : (InstrWords.mk (.set (.reg 0) .next) [0x0005]).wellFormed = true := by decide
theorem test_wellFormed_too_few : (InstrWords.mk (.set (.reg 0) .next) []).wellFormed = false := by decide
theorem test_wellFormed_too_many : (InstrWords.mk (.jsr (.reg 0)) [0x0005]).wellFormed = false := by decide
theorem test_executable_refuses_sentinel : (Instr.jsr .next).executable { haltSentinel := 0x7C10 } = false := by decide
theorem test_executable_accepts : (Instr.jsr .next).executable { haltSentinel := 0xFFF0 } = true := by decide

/-! ### The names the host uses -/

theorem test_decodeTableWord_set : decodeTableWord 16 0x0001 = some (.set (.reg 0) (.reg 0)) := by decide
theorem test_decodeTableWord_jsr : decodeTableWord 16 0x7C10 = some (.jsr .next) := by decide
theorem test_withFetchWord_runs : (after (step (State.reset.withFetchWord 16 0x8C01))).readReg 0 = 3 := by decide
theorem test_withFetchWord_next_words :
    ((State.reset.withFetchWord 48 0x200010007DE1).readMem 0, (State.reset.withFetchWord 48 0x200010007DE1).readMem 1,
      (State.reset.withFetchWord 48 0x200010007DE1).readMem 2) = (0x7DE1, 0x1000, 0x2000) := by decide

/-! ### Single steps -/

theorem test_set_next_word_order : (run1 [0x7DE1, 0x1000, 0x0020] 0 0).readMem 0x1000 = 0x0020 := by decide
theorem test_set_push : ((run1 [0x01A1] 0x55 0).sp, (run1 [0x01A1] 0x55 0).readMem 0x00FF) = (0x00FF, 0x0055) := by decide
theorem test_add_carry : ((run1 [0x0402] 0xFFFF 0xFFFF).readReg 0, (run1 [0x0402] 0xFFFF 0xFFFF).ov) = (0xFFFE, 0x0001) := by decide
theorem test_add_pop_peek : ((run1 [0x6582] 0 0).sp, (after (step ((start [0x6582] 0 0).writeWords 0x0100 [3, 4]))).readMem 0x0100) = (0x0101, 7) := by decide
theorem test_sub_borrow : ((run1 [0x0403] 0x0003 0x0005).readReg 0, (run1 [0x0403] 0x0003 0x0005).ov) = (0xFFFE, 0xFFFF) := by decide
theorem test_sub_pc_loops : ((run1 [0x85C3] 0 0).pc, (run1 [0x85C3] 0 0).ov) = (0x0010, 0) := by decide
theorem test_mul_high_half : ((run1 [0x0404] 0x1234 0x5678).readReg 0, (run1 [0x0404] 0x1234 0x5678).ov) = (0x0060, 0x0626) := by decide
theorem test_mul_ov_by_ov : (after (step ((start [0x75D4] 0 0).setOv 0x0100))).ov = 0x0001 := by decide
theorem test_div_quotient : (run1 [0x0405] 10 3).readReg 0 = 3 := by decide
theorem test_div_by_zero : ((run1 [0x0405] 5 0).readReg 0, (run1 [0x0405] 5 0).run) = (0, .running) := by decide
theorem test_mod_remainder : ((run1 [0x0406] 0xFFFF 0x0010).readReg 0, (run1 [0x0406] 0xFFFF 0x0010).ov) = (0x000F, 0xBEEF) := by decide
theorem test_mod_by_zero : ((run1 [0x0406] 0x0005 0x0000).readReg 0, (run1 [0x0406] 0x0005 0x0000).ov) = (0x0000, 0xBEEF) := by decide
theorem test_shl_sixteen : ((run1 [0x0407] 0xFFFF 0x0010).readReg 0, (run1 [0x0407] 0xFFFF 0x0010).ov) = (0x0000, 0xFFFF) := by decide
theorem test_shl_twenty : ((run1 [0x0407] 0xABCD 0x0014).readReg 0, (run1 [0x0407] 0xABCD 0x0014).ov) = (0x0000, 0xBCD0) := by decide
theorem test_shr_fifteen : ((run1 [0x0408] 0x8000 0x000F).readReg 0, (run1 [0x0408] 0x8000 0x000F).ov) = (0x0001, 0x0000) := by decide
theorem test_shr_sixteen : ((run1 [0x0408] 0x8000 0x0010).readReg 0, (run1 [0x0408] 0x8000 0x0010).ov) = (0x0000, 0x0000) := by decide
theorem test_and_bits : ((run1 [0x0409] 0xFF00 0x0FF0).readReg 0, (run1 [0x0409] 0xFF00 0x0FF0).ov) = (0x0F00, 0xBEEF) := by decide
theorem test_bor_bits : ((run1 [0x040A] 0xFF00 0x0FF0).readReg 0, (run1 [0x040A] 0xFF00 0x0FF0).ov) = (0xFFF0, 0xBEEF) := by decide
theorem test_xor_bits : ((run1 [0x040B] 0xFF00 0x0FF0).readReg 0, (run1 [0x040B] 0xFF00 0x0FF0).ov) = (0xF0F0, 0xBEEF) := by decide
theorem test_xor_literal_destination : (run1 [0x6A0B] 0 0).run = .faulted .illegalWriteTarget := by decide
theorem test_ife_1 : (run1 [0x040C] 0x0005 0x0005).skip = false := by decide
theorem test_ife_2 : (run1 [0x040C] 0x0005 0x0006).skip = true := by decide
theorem test_ifn_1 : (run1 [0x040D] 0x0005 0x0005).skip = true := by decide
theorem test_ifn_2 : (run1 [0x040D] 0x0005 0x0006).skip = false := by decide
theorem test_ifg_1 : (run1 [0x040E] 0x8000 0x7FFF).skip = false := by decide
theorem test_ifg_2 : (run1 [0x040E] 0x0005 0x0005).skip = true := by decide
theorem test_ifb_1 : (run1 [0x040F] 0x00F0 0x000F).skip = true := by decide
theorem test_ifb_2 : (run1 [0x040F] 0x00F0 0x0010).skip = false := by decide
theorem test_jsr_pop : let s := (start [0x6010] 0 0).writeWords 0x0100 [0x3000]
    ((after (step s)).pc, (after (step s)).sp, (after (step s)).readMem 0x0100) = (0x3000, 0x0100, 0x0011) := by decide
theorem test_jsr_skipped : let s := (start [0x7C10, 0x0008] 0 0).setSkip true
    ((after (step s)).pc, (after (step s)).sp, (after (step s)).skip) = (0x0012, 0x0100, false) := by decide
theorem test_reserved_under_skip : let s := (start [0x7C20, 0x0007] 0 0).setSkip true
    ((after (step s)).run, (after (step s)).skip) = (.faulted .illegalOpcode, true) := by decide
theorem test_sentinel_under_skip : let s := (start [0xFFF0] 0 0).setSkip true
    ((after (step s)).run, (after (step s)).pc, (after (step s)).skip) = (.halted, 0x0010, true) := by decide
theorem test_next_word_from_address_zero : let s := ((start [] 0 0).setPc 0xFFFF).writeWords 0xFFFF [0x7C01, 0x0042]
    ((after (step s)).readReg 0, (after (step s)).pc) = (0x0042, 0x0001) := by decide
theorem test_next_word_destination : (run1 [0x01F1, 0x1234] 0x4321 0).readMem 0x0011 = 0x4321 := by decide
theorem test_observe_fields : (observe (start [0x79E1] 0 0)).a = 0x1E := by decide
theorem test_reset_parameters : (State.resetWith resetConfig { resetParams with skip := true }).skip = true := by decide
theorem test_write_of_zero_is_not_listed : (((start [0x0001] 0 0).writeMem 5 7).writeMem 5 0).mem = [(0x10, 0x0001)] := by decide

/-! ### Witnesses: states and operands that meet the hypotheses of each statement -/

theorem witness_DecodeInvertsEncode : ∃ c : InstrWords, c.wellFormed = true ∧ c.extra = [0x1000, 0x2000] := ⟨⟨.set .atNext .atNext, [0x1000, 0x2000]⟩, by decide⟩
theorem witness_EncodeInvertsDecode : ∃ w i, decodeFirst w = .ok i := ⟨0xFFFF, .ifb (.lit 31) (.lit 31), by decide⟩
theorem witness_LengthIsReadFromTheFirstWord : ∃ w1 w2 w3 i1 i2 i3, decodeFirst w1 = .ok i1 ∧ decodeFirst w2 = .ok i2 ∧
    decodeFirst w3 = .ok i3 ∧ i1.length = 1 ∧ i2.length = 2 ∧ i3.length = 3 := 
  ⟨0x6001, 0x7C10, 0x5D01, .set (.reg 0) .pop, .jsr .next, .set (.atNextPlusReg 0) (.atNextPlusReg 7), by decide⟩
theorem witness_StepRunsTheDecodedInstruction : ∃ (s : State) (i : Instr), s.run = .running ∧ s.readMem s.pc ≠ s.cfg.haltSentinel ∧
    decodeFirst (s.readMem s.pc) = .ok i := ⟨start [0x0402] 1 2, .add (.reg 0) (.reg 1), by decide⟩
theorem witness_SentinelHaltsAndChangesNothingElse : ∃ s : State, s.run = .running ∧ s.readMem s.pc = s.cfg.haltSentinel := ⟨start [0xFFF0] 0 0, by decide⟩
theorem witness_StoppedMachineStaysAsItIs : ∃ s : State, s.run ≠ .running := ⟨(start [] 0 0).halt, by decide⟩
/-- All three ends; the last word is XOR with the first literal, 0x20, as destination: the largest op and the least `a` of the clause. -/
theorem witness_HowAStepEndsTheRun : ∃ s1 s2 s3 t1 t2 t3 : State,
    (s1.run = .running ∧ step s1 = .next t1 ∧ t1.run = .halted) ∧
    (s2.run = .running ∧ step s2 = .next t2 ∧ t2.run = .faulted .illegalOpcode) ∧
    (s3.run = .running ∧ step s3 = .next t3 ∧ t3.run = .faulted .illegalWriteTarget) := 
  ⟨start [0xFFF0] 0 0, start [0x0020] 0 0, start [0x020B] 0 0, run1 [0xFFF0] 0 0, run1 [0x0020] 0 0, run1 [0x020B] 0 0,
    ⟨rfl, rfl, by decide⟩, ⟨rfl, rfl, by decide⟩, ⟨rfl, rfl, by decide⟩⟩
theorem witness_StepReportsHowItEnded : (∃ s : State, s.run ≠ .running) ∧ ∃ s : State, s.run = .running := ⟨⟨(start [] 0 0).halt, by decide⟩, ⟨start [] 0 0, by decide⟩⟩
theorem witness_LoadedStateHasTheSourcesResetValues : ∃ stream : List Word, stream.length ≤ 65536 ∧ stream ≠ [] := ⟨[0x7C01, 0x0005], by decide⟩
theorem witness_ResetTakesTheDecidedValues : ∃ s, State.load resetConfig resetParams [0x8C01] = some s := ⟨_, rfl⟩
theorem witness_ResetAndLoadMeetInv : ∃ s, State.load resetConfig resetParams [0x8C01, 0xFFF0] = some s := ⟨_, rfl⟩
theorem witness_EveryStepKeepsInv : ∃ s t : State, s.Inv ∧ step s = .next t ∧ t.mem ≠ s.mem := ⟨start [0x01A1] 5 0, run1 [0x01A1] 5 0, by decide, rfl, by decide⟩
theorem witness_NextWordDestinationIsReplacedInMemory : ∃ s : State, s.mem.wf = true ∧ s.skip = false := ⟨start [0x01F1, 0x1234] 0 0, by decide⟩
theorem witness_WrittenLocationReadsBack : ∃ s : State, s.mem.wf = true ∧ (Loc.mem 0xFFFF).isLit = false ∧ (Loc.lit 31).isLit = true := ⟨start [] 0 0, by decide⟩

/-- The hypotheses of every statement about a writing instruction's result: no skip, and a destination of either kind. -/
theorem witness_SetCopiesTheSource : ∃ s : State, s.skip = false ∧ (Operand.reg 7).isLit = false ∧ (Operand.lit 0).isLit = true := ⟨start [] 0 0, by decide⟩
theorem witness_AddGivesSumAndCarry : ∃ s : State, s.skip = false ∧ (Operand.reg 7).isLit = false ∧ (Operand.lit 0).isLit = true := ⟨start [] 0 0, by decide⟩
theorem witness_SubGivesDifferenceAndBorrow : ∃ s : State, s.skip = false ∧ (Operand.reg 7).isLit = false ∧ (Operand.lit 0).isLit = true := ⟨start [] 0 0, by decide⟩
theorem witness_MulGivesLowAndHighHalf : ∃ s : State, s.skip = false ∧ (Operand.reg 7).isLit = false ∧ (Operand.lit 0).isLit = true := ⟨start [] 0 0, by decide⟩
theorem witness_DivGivesTheQuotient : ∃ (s : State) (a b c : Operand), s.skip = false ∧ a.isLit = false ∧
    s.locRead (resolveBoth a b s).src = 0 ∧ s.locRead (resolveBoth a c s).src ≠ 0 ∧ (Operand.lit 0).isLit = true := 
  ⟨start [] 5 0, .reg 0, .reg 1, .reg 0, by decide⟩
theorem witness_ModGivesTheRemainder : ∃ (s : State) (a b c : Operand), s.skip = false ∧ a.isLit = false ∧
    s.locRead (resolveBoth a b s).src = 0 ∧ s.locRead (resolveBoth a c s).src ≠ 0 ∧ (Operand.lit 0).isLit = true := 
  ⟨start [] 5 0, .reg 0, .reg 1, .reg 0, by decide⟩
theorem witness_ShlGivesTheShiftedWordAndTheBitsShiftedOut : ∃ (s : State) (a b c : Operand), s.skip = false ∧ a.isLit = false ∧
    (s.locRead (resolveBoth a b s).src).toNat = 16 ∧ (s.locRead (resolveBoth a c s).src).toNat = 17 ∧
    (Operand.lit 31).isLit = true := ⟨start [] 0 0, .reg 0, .lit 16, .lit 17, by decide⟩
theorem witness_ShrGivesTheShiftedWord : ∃ s : State, s.skip = false ∧ (Operand.reg 7).isLit = false ∧ (Operand.lit 0).isLit = true := ⟨start [] 0 0, by decide⟩
theorem witness_BitwiseInstructionsActBitByBit : ∃ s : State, s.skip = false ∧ (Operand.reg 7).isLit = false ∧ (Operand.lit 0).isLit = true := ⟨start [] 0 0, by decide⟩
theorem witness_IfeIfnIfbArmTheSkip : ∃ s : State, s.skip = false := ⟨start [] 0 0, by decide⟩
theorem witness_IfgComparesUnsigned : ∃ s : State, s.skip = false := ⟨start [] 0 0, by decide⟩
theorem witness_SkippedInstructionOnlyAdvances : ∃ (s : State) (i : Instr), s.run = .running ∧
    s.readMem s.pc ≠ s.cfg.haltSentinel ∧ decodeFirst (s.readMem s.pc) = .ok i ∧ s.skip = true := ⟨(start [0x6010] 0 0).setSkip true, .jsr .pop, by decide⟩
theorem witness_OnlyConditionalsArmTheSkip : ∃ s1 t1 s2 t2 : State,
    (step s1 = .next t1 ∧ t1.notFaulted ∧ s1.skip = false ∧ t1.skip = true) ∧
    (step s2 = .next t2 ∧ s2.skip = true ∧ s2.run = .running ∧ t2.run = .running) := 
  ⟨start [0x000D] 0 0, run1 [0x000D] 0 0, (start [0x000D] 0 0).setSkip true,
    after (step ((start [0x000D] 0 0).setSkip true)), ⟨rfl, by decide⟩, ⟨rfl, by decide⟩⟩
theorem witness_JsrPushesTheReturnAddressAndJumps : ∃ s : State, s.mem.wf = true ∧ s.skip = false := ⟨start [0x7C10, 0x0008] 0 0, by decide⟩
theorem witness_SetPcPopReturnsFromJsr : ∃ (s t u : State) (b : Operand), s.mem.wf = true ∧ s.skip = false ∧
    exec (.jsr b) s = .next t ∧ u.skip = false ∧ u.sp = t.sp ∧ u.mem = t.mem := 
  ⟨start [] 0x2000 0, after (exec (.jsr (.reg 0)) (start [] 0x2000 0)), after (exec (.jsr (.reg 0)) (start [] 0x2000 0)),
    .reg 0, by decide, by decide, rfl, by decide, rfl, rfl⟩
theorem witness_WritingInstructionsChangeOnlyTheirDestination : ∃ (i : Instr) (a : Operand) (s t : State), i.isWriting = true ∧
    i.operandA = some a ∧ a.isLit = false ∧ s.skip = false ∧ exec i s = .next t := 
  ⟨.xor .push .pop, .push, start [] 0 0, after (exec (.xor .push .pop) (start [] 0 0)), rfl, rfl, rfl, by decide, rfl⟩
theorem witness_ConditionalsWriteNoLocation : ∃ (i : Instr) (s : State), i.isConditional = true ∧ s.skip = false := ⟨.ifb (.lit 0) .push, start [] 0 0, by decide⟩
theorem witness_RegisterChangesOnlyAsDestination : ∃ (s t : State) (n : Fin 8), step s = .next t ∧ t.notFaulted ∧
    t.readReg n ≠ s.readReg n := 
  ⟨start [0xFC71] 0 0, run1 [0xFC71] 0 0, 7, rfl, by decide⟩
/-- One by the side effect of ADD, one as the destination of SET. -/
theorem witness_OvChangesOnlyAsTheRuleSays : ∃ s1 t1 s2 t2 : State, (step s1 = .next t1 ∧ t1.notFaulted ∧ t1.ov ≠ s1.ov) ∧
    (step s2 = .next t2 ∧ t2.notFaulted ∧ t2.ov ≠ s2.ov) := 
  ⟨start [0x0402] 0 0, run1 [0x0402] 0 0, start [0x01D1] 0 0, run1 [0x01D1] 0 0, ⟨rfl, by decide⟩, ⟨rfl, by decide⟩⟩
/-- One by SET PUSH, A, one by JSR. -/
theorem witness_MemoryChangesOnlyWhereStored : ∃ (s1 t1 s2 t2 : State) (k : Word),
    (step s1 = .next t1 ∧ t1.notFaulted ∧ t1.readMem k ≠ s1.readMem k) ∧
    (step s2 = .next t2 ∧ t2.notFaulted ∧ t2.readMem k ≠ s2.readMem k) := 
  ⟨start [0x01A1] 5 0, run1 [0x01A1] 5 0, start [0x0010] 0 0, run1 [0x0010] 0 0, 0x00FF, ⟨rfl, by decide⟩, ⟨rfl, by decide⟩⟩
/-- One state for each way: JSR POP, SUB SP, 1, SET A, POP. -/
theorem witness_SpMovesOnlyAsTheRuleSays : ∃ s1 t1 s2 t2 s3 t3 : State,
    (s1.run = .running ∧ step s1 = .next t1 ∧ t1.run = .running ∧ t1.pc = 0x0042 ∧ t1.sp = 0x0100) ∧
    (s2.run = .running ∧ step s2 = .next t2 ∧ t2.run = .running ∧ t2.sp = 0x00FF) ∧
    (s3.run = .running ∧ step s3 = .next t3 ∧ t3.run = .running ∧ t3.sp = s3.sp + 1) := 
  ⟨(start [0x6010] 0 0).writeMem 0x0100 0x0042, after (step ((start [0x6010] 0 0).writeMem 0x0100 0x0042)),
    start [0x85B3] 0 0, run1 [0x85B3] 0 0, start [0x6001] 0 0, run1 [0x6001] 0 0,
    ⟨rfl, rfl, by decide⟩, ⟨rfl, rfl, by decide⟩, ⟨rfl, rfl, by decide⟩⟩
/-- One state for each way: JSR POP, SUB PC, 1, SET A, POP. -/
theorem witness_PcChangesOnlyInTheListedWays : ∃ s1 t1 s2 t2 s3 t3 : State,
    (s1.run = .running ∧ step s1 = .next t1 ∧ t1.run = .running ∧ t1.pc = 0x0042 ∧ t1.sp = 0x0100) ∧
    (s2.run = .running ∧ step s2 = .next t2 ∧ t2.run = .running ∧ t2.pc = 0x0010) ∧
    (s3.run = .running ∧ step s3 = .next t3 ∧ t3.run = .running ∧ t3.pc = s3.pc + 1) := 
  ⟨(start [0x6010] 0 0).writeMem 0x0100 0x0042, after (step ((start [0x6010] 0 0).writeMem 0x0100 0x0042)),
    start [0x85C3] 0 0, run1 [0x85C3] 0 0, start [0x6001] 0 0, run1 [0x6001] 0 0,
    ⟨rfl, rfl, by decide⟩, ⟨rfl, rfl, by decide⟩, ⟨rfl, rfl, by decide⟩⟩
theorem witness_NoStepChangesTheParameters : ∃ s t : State, step s = .next t ∧ s ≠ t := ⟨start [0x0402] 0 0, run1 [0x0402] 0 0, rfl, by decide⟩
/-- XOR onto the next word; JSR to the word below `sp`. -/
theorem witness_StoreIsSeenByTheNextFetch : ∃ (i : Instr) (a b : Operand) (s u : State),
    (i.isWriting = true ∧ i.operandA = some a ∧ s.mem.wf = true ∧ s.skip = false ∧
      (resolveBoth a i.operandB s).dst = .mem (resolveBoth a i.operandB s).state.pc) ∧
    (u.mem.wf = true ∧ u.skip = false ∧
      (resolve b u).state.locRead (resolve b u).loc = u.sp + b.spMove - 1) := 
  ⟨.xor (.atReg 0) (.lit 9), .atReg 0, .reg 1, start [] 0x0010 0, start [] 0 0x00FF, by decide, by decide⟩

end Sys2Proof.Tests
end

/-! ## The state's elements: reset values and frames

What each step can do to a register, `ov`, `sp` and the skip flag (spec/10_state.md). The state once an instruction's operands are
resolved is named `State.resolved`; everything an instruction does after that is one of four shapes, from which each rule is
read off. -/

namespace Sys2Proof

/-! ### Kinds of instruction by their opcode (R55, R57) -/

theorem Instr.isWriting_iff_opcode (i : Instr) :
    i.isWriting = true ↔ 1 ≤ i.opcode.toNat ∧ i.opcode.toNat ≤ 0xB := by
  cases i <;> simp [Instr.isWriting, Instr.opcode]

theorem Instr.isConditional_iff_opcode (i : Instr) : i.isConditional = true ↔ 0xC ≤ i.opcode.toNat := by
  cases i <;> simp [Instr.isConditional, Instr.opcode]

theorem Instr.setsOv_iff_opcode (i : Instr) :
    i.setsOv = true ↔ i.opcode ∈ [0x2#4, 0x3#4, 0x4#4, 0x5#4, 0x7#4, 0x8#4] := by
  cases i <;> simp [Instr.setsOv, Instr.opcode]

theorem Instr.not_isWriting_of_isConditional {i : Instr} (h : i.isConditional = true) : i.isWriting ≠ true := by
  rw [Instr.isConditional_iff_opcode] at h
  rw [ne_eq, Instr.isWriting_iff_opcode]
  omega

/-- The code of a register operand is the register's number (R52). -/
theorem encodeOperand_reg_toNat : ∀ n : Fin 8, (encodeOperand (.reg n)).toNat = n := by decide

/-- The `a` field of a word is the code of the destination operand it decodes to. -/
theorem aField_of_decodeFirst {w : Word} {i : Instr} {a : Operand} (h : decodeFirst w = .ok i)
    (ha : i.operandA = some a) : aField w = encodeOperand a := by
  obtain ⟨-, -, ⟨-, hA⟩ | ⟨-, -, rfl⟩⟩ := decodeFirst_fields h
  · obtain rfl : decodeOperand (aField w) = a := Option.some.inj (hA.symm.trans ha)
    exact (encodeOperand_decodeOperand _).symm
  · cases ha

/-- The op field of a word that decodes to a writing instruction is between 1 and 0xB. -/
theorem opField_of_isWriting {w : Word} {i : Instr} (h : decodeFirst w = .ok i) (hw : i.isWriting = true) :
    1 ≤ (opField w).toNat ∧ (opField w).toNat ≤ 0xB := by
  obtain ⟨hop, -⟩ := decodeFirst_fields h
  exact hop ▸ i.isWriting_iff_opcode.mp hw

namespace Machine

/-! ### The state once the operands are resolved (R76, R93) -/

/-- The state once all operands of `i` are resolved: `pc` past its next words, `sp` moved by its POP and PUSH operands. -/
def State.resolved (s : State) (i : Instr) : State :=
  { s with pc := s.pc + BitVec.ofNat 16 i.extraWords, sp := s.sp + i.spMove }

section

variable (s : State) (i : Instr)

@[simp] theorem State.resolved_pc : (s.resolved i).pc = s.pc + BitVec.ofNat 16 i.extraWords := rfl
@[simp] theorem State.resolved_sp : (s.resolved i).sp = s.sp + i.spMove := rfl
@[simp] theorem State.resolved_ov : (s.resolved i).ov = s.ov := rfl
@[simp] theorem State.resolved_skip : (s.resolved i).skip = s.skip := rfl
@[simp] theorem State.resolved_run : (s.resolved i).run = s.run := rfl
@[simp] theorem State.resolved_cfg : (s.resolved i).cfg = s.cfg := rfl
@[simp] theorem State.resolved_readMem (k : Word) : (s.resolved i).readMem k = s.readMem k := rfl
@[simp] theorem State.resolved_readReg (n : Fin 8) : (s.resolved i).readReg n = s.readReg n := rfl

end

/-- Resolving the two operands of a binary-form instruction gives the resolved state. -/
theorem resolveBoth_state_eq_resolved {i : Instr} {a : Operand} (ha : i.operandA = some a) (s : State) :
    (resolveBoth a i.operandB s).state = s.resolved i := by
  simp [resolveBoth_state, State.resolved, Instr.extraWords, Instr.spMove, ha]

/-- Resolving JSR's one operand gives the resolved state. -/
theorem resolve_state_eq_resolved (b : Operand) (s : State) : (resolve b s).state = s.resolved (.jsr b) := by
  simp [resolve_state, State.resolved, Instr.extraWords, Instr.spMove, Instr.operandA, Instr.operandB]

/-! ### What a commit and a push leave alone (R17, R93, R94) -/

section

variable (s : State)

theorem State.commit_readReg (l : Loc) (r : AluResult) (n : Fin 8) (h : l ≠ .reg n) :
    (s.commit l r).readReg n = s.readReg n := by
  rw [State.commit_eq]
  exact s.locWrite_readReg l _ n h

theorem State.commit_readMem (l : Loc) (r : AluResult) (k : Word) (h : l ≠ .mem k) :
    (s.commit l r).readMem k = s.readMem k := by
  rw [State.commit_eq]
  exact s.locWrite_readMem l _ k h

theorem State.commit_pc (l : Loc) (r : AluResult) (h : l ≠ .pc) : (s.commit l r).pc = s.pc := by
  rw [State.commit_eq]
  exact s.locWrite_pc l _ h

theorem State.commit_sp (l : Loc) (r : AluResult) (h : l ≠ .sp) : (s.commit l r).sp = s.sp := by
  rw [State.commit_eq]
  exact s.locWrite_sp l _ h

/-- With `sp` as destination it becomes the result, whether or not the instruction sets `ov` after it. -/
theorem State.commit_sp_same (r : AluResult) : (s.commit .sp r).sp = r.result := by
  rw [State.commit_eq]
  rfl

theorem State.commit_ov (l : Loc) (r : AluResult) (h : l ≠ .ov) (hr : r.ov = none) : (s.commit l r).ov = s.ov := by
  simp [State.commit_eq, hr, s.locWrite_ov l _ h]

@[simp] theorem State.push_sp (v : Word) : (s.push v).sp = s.sp - 1 := rfl
@[simp] theorem State.push_ov (v : Word) : (s.push v).ov = s.ov := rfl
@[simp] theorem State.push_skip (v : Word) : (s.push v).skip = s.skip := rfl
@[simp] theorem State.push_readReg (v : Word) (n : Fin 8) : (s.push v).readReg n = s.readReg n := rfl

end

/-! ### Everything an instruction can do from the resolved state -/

/-- A writing instruction that executes commits its result to the location its destination resolves to. -/
theorem exec_commits {i : Instr} {a : Operand} {s t : State} (hw : i.isWriting = true) (ha : i.operandA = some a)
    (hl : a.isLit = false) (hs : s.skip = false) (h : exec i s = .next t) :
    ∃ r : AluResult, r.ov.isSome = i.setsOv ∧ i.storedValue s = some r.result ∧
      t = (s.resolved i).commit (resolve a s).loc r := by
  obtain ⟨a', alu, ha', hr, he⟩ := exec_writing hw
  obtain rfl : a' = a := Option.some.inj (ha'.symm.trans ha)
  rw [he, execWriting_commits hs hl, resolveBoth_state_eq_resolved ha, resolveBoth_dst] at h
  cases h
  refine ⟨_, (hr _ _).1, ?_, rfl⟩
  rw [Instr.storedValue, ha, ← resolveBoth_state_eq_resolved ha]
  exact (hr _ _).2

/-- An instruction that raises no fault only resolves its operands and clears the flag, commits a result, leaves the outcome of a
condition in the flag, or pushes and jumps. -/
theorem exec_notFaulted_cases {i : Instr} {s t : State} (h : exec i s = .next t) (hf : t.notFaulted) :
    (s.skip = true ∧ t = (s.resolved i).setSkip false) ∨
    (s.skip = false ∧ i.isWriting = true ∧ ∃ a, i.operandA = some a ∧ ∃ r : AluResult,
      r.ov.isSome = i.setsOv ∧ i.storedValue s = some r.result ∧
        t = (s.resolved i).commit (resolve a s).loc r) ∨
    (s.skip = false ∧ i.isConditional = true ∧ ∃ armed, t = (s.resolved i).setSkip armed) ∨
    (s.skip = false ∧ ∃ b, i = .jsr b ∧
      t = ((s.resolved i).push (s.resolved i).pc).setPc ((s.resolved i).locRead (resolve b s).loc)) := by
  rcases exec_cases i s with ⟨hs, he⟩ | ⟨hs, hw, a, ha, ⟨-, he⟩ | ⟨hl, -⟩⟩ | ⟨hs, hc, a, armed, ha, he⟩ |
    ⟨hs, b, rfl, he⟩
  · cases he.symm.trans h
    exact .inl ⟨hs, rfl⟩
  · cases he.symm.trans h
    simp [State.notFaulted] at hf
  · exact .inr (.inl ⟨hs, hw, a, ha, exec_commits hw ha hl hs h⟩)
  · rw [resolveBoth_state_eq_resolved ha] at he
    cases he.symm.trans h
    exact .inr (.inr (.inl ⟨hs, hc, armed, rfl⟩))
  · rw [resolve_state_eq_resolved] at he
    cases he.symm.trans h
    exact .inr (.inr (.inr ⟨hs, b, rfl, rfl⟩))

/-! ### What an instruction that raises no fault can change -/

section

variable {i : Instr} {s t : State}

/-- A register changes only as the destination of a writing instruction that executes (R10). -/
theorem exec_changes_readReg {n : Fin 8} (h : exec i s = .next t) (hf : t.notFaulted)
    (hn : t.readReg n ≠ s.readReg n) : s.skip = false ∧ i.isWriting = true ∧ i.operandA = some (.reg n) := by
  rcases exec_notFaulted_cases h hf with ⟨-, rfl⟩ | ⟨hs, hw, a, ha, r, -, -, rfl⟩ | ⟨-, -, armed, rfl⟩ |
    ⟨-, b, -, rfl⟩
  · simp at hn
  · have hloc : (resolve a s).loc = .reg n := by
      by_contra hne
      exact hn (State.commit_readReg _ _ r n hne)
    rw [resolve_eq_reg] at hloc
    exact ⟨hs, hw, hloc ▸ ha⟩
  · simp at hn
  · simp at hn

/-- `ov` changes only by an instruction that sets it or has it as destination, and executes (R18). -/
theorem exec_changes_ov (h : exec i s = .next t) (hf : t.notFaulted) (hne : t.ov ≠ s.ov) :
    s.skip = false ∧ (i.setsOv = true ∨ i.isWriting = true ∧ i.operandA = some .ov) := by
  rcases exec_notFaulted_cases h hf with ⟨-, rfl⟩ | ⟨hs, hw, a, ha, r, hov, -, rfl⟩ | ⟨-, -, armed, rfl⟩ |
    ⟨-, b, -, rfl⟩
  · simp at hne
  · refine ⟨hs, or_iff_not_imp_left.mpr fun hset => ⟨hw, ?_⟩⟩
    have hnone : r.ov = none := by simpa [hset] using hov
    have hloc : (resolve a s).loc = .ov := by
      by_contra hl
      exact hne (State.commit_ov _ _ r hl hnone)
    rw [resolve_eq_ov] at hloc
    exact hloc ▸ ha
  · simp at hne
  · simp at hne

/-- The flag is set only by a conditional that executes (R19). -/
theorem exec_arms_skip (h : exec i s = .next t) (hf : t.notFaulted) (hs : s.skip = false) (ht : t.skip = true) :
    i.isConditional = true := by
  rcases exec_notFaulted_cases h hf with ⟨-, rfl⟩ | ⟨-, -, a, -, r, -, -, rfl⟩ | ⟨-, hc, -⟩ |
    ⟨-, b, -, rfl⟩
  · simp at ht
  · simp [hs] at ht
  · exact hc
  · simp [hs] at ht

/-- Where `sp` goes: by JSR one further down, as a destination to the result, otherwise by the operands alone (R17). -/
theorem exec_moves_sp (h : exec i s = .next t) (hf : t.notFaulted) :
    (s.skip = false ∧ (∃ b, i = .jsr b) ∧ t.sp = s.sp + i.spMove - 1) ∨
    (s.skip = false ∧ i.isWriting = true ∧ i.operandA = some .sp ∧ i.storedValue s = some t.sp) ∨
    ((s.skip = false → (∀ b, i ≠ .jsr b) ∧ ¬(i.isWriting = true ∧ i.operandA = some .sp)) ∧
      t.sp = s.sp + i.spMove) := by
  rcases exec_notFaulted_cases h hf with ⟨hs, rfl⟩ | ⟨hs, hw, a, ha, r, -, hv, rfl⟩ | ⟨-, hc, armed, rfl⟩ |
    ⟨hs, b, rfl, rfl⟩
  · exact .inr (.inr ⟨by simp [hs], rfl⟩)
  · by_cases hsp : a = .sp
    · subst hsp
      exact .inr (.inl ⟨hs, hw, ha, hv.trans (congrArg some (State.commit_sp_same _ r).symm)⟩)
    · refine .inr (.inr ⟨fun _ => ⟨?_, fun hd => hsp (Option.some.inj (ha.symm.trans hd.2))⟩, ?_⟩)
      · rintro b rfl
        cases hw
      · exact State.commit_sp _ _ r ((resolve_eq_sp a s).not.mpr hsp)
  · refine .inr (.inr ⟨fun _ => ⟨?_, fun hd => Instr.not_isWriting_of_isConditional hc hd.1⟩, rfl⟩)
    rintro b rfl
    cases hc
  · exact .inl ⟨hs, ⟨b, rfl⟩, rfl⟩

end

/-! ### A step that ends in no fault -/

/-- Either the machine does not run after it and nothing but the run state differs, or it executes or skips the instruction at
`pc` (R70). -/
theorem step_stops_or_executes {s t : State} (h : step s = .next t) (hf : t.notFaulted) :
    (t.run ≠ .running ∧ t = s.setRun t.run) ∨
    (s.run = .running ∧ ∃ i, decodeFirst (s.readMem s.pc) = .ok i ∧ exec i s.enterInstr = .next t) := by
  rcases step_cases h with ⟨hr, rfl⟩ | ⟨-, -, rfl⟩ | ⟨-, -, -, rfl⟩ | ⟨hr, -, he⟩
  · exact .inl ⟨hr, rfl⟩
  · exact .inl ⟨by simp, rfl⟩
  · simp [State.notFaulted, State.illegalOpcode] at hf
  · exact .inr ⟨hr, he⟩

/-- A step that leaves the machine running executes or skips the instruction at `pc`. -/
theorem step_running_executes {s t : State} (h : step s = .next t) (ht : t.run = .running) :
    ∃ i, decodeFirst (s.readMem s.pc) = .ok i ∧ exec i s.enterInstr = .next t := by
  rcases step_stops_or_executes h (.inl ht) with ⟨hne, -⟩ | ⟨-, he⟩
  · exact absurd ht hne
  · exact he

/-! ### The statements -/

/-- Settles O12: the loaded image read word by word, with the machine's other fields those of a reset. -/
theorem loadedStateHasTheSourcesResetValues : Obligations.LoadedStateHasTheSourcesResetValues := by
  intro cfg p stream hlen
  refine ⟨_, if_pos hlen, rfl, rfl, fun k => ?_, fun n => ?_⟩
  · have hread := Memory.read_ofWords 0 stream k.toNat
    simp only [Nat.not_lt_zero, if_false, Nat.sub_zero] at hread
    refine hread.trans ?_
    split
    · next hk => exact List.getD_eq_getElem _ _ hk
    · next hk => exact List.getD_eq_default _ _ (not_lt.mp hk)
  · exact Nat.mod_eq_of_lt (n.isLt.trans (by decide))

/-- Settles O31, by the two lemmas on who sets the flag and what a skipped instruction does to it. -/
theorem onlyConditionalsArmTheSkip : Obligations.OnlyConditionalsArmTheSkip := by
  intro s t h
  constructor
  · intro hf hs ht
    rcases step_stops_or_executes h hf with ⟨-, heq⟩ | ⟨hr, i, hd, he⟩
    · rw [heq, State.setRun_skip, hs] at ht
      cases ht
    · obtain ⟨hop, -⟩ := decodeFirst_fields hd
      exact ⟨hr, hop ▸ i.isConditional_iff_opcode.mp (exec_arms_skip he hf hs ht)⟩
  · intro hs _ ht
    obtain ⟨i, -, he⟩ := step_running_executes h ht
    cases (exec_skipped i (s := s.enterInstr) hs).symm.trans he
    rfl

/-- Settles O34: a writing instruction is one commit to its destination, and each clause is the frame of that commit. -/
theorem writingInstructionsChangeOnlyTheirDestination :
    Obligations.WritingInstructionsChangeOnlyTheirDestination := by
  intro i a s t hw ha hl hs h
  obtain ⟨r, hov, -, rfl⟩ := exec_commits hw ha hl hs h
  refine ⟨fun n hn => ?_, fun ho hset => ?_, fun hsp => ?_, fun hpc => ?_, ?_, ?_, ?_, fun k hk => ?_⟩
  · exact State.commit_readReg _ _ r n ((resolve_eq_reg a s n).not.mpr hn)
  · have hnone : r.ov = none := by simpa [hset] using hov
    exact State.commit_ov _ _ r ((resolve_eq_ov a s).not.mpr ho) hnone
  · exact State.commit_sp _ _ r ((resolve_eq_sp a s).not.mpr hsp)
  · exact State.commit_pc _ _ r ((resolve_eq_pc a s).not.mpr hpc)
  · simpa using hs
  · exact State.commit_run _ _ r ((resolve_isLit a s).trans hl)
  · simp
  · exact State.commit_readMem _ _ r k hk

/-- Settles O36: a step that changes a register executes an instruction, and the instruction's destination is that register. -/
theorem registerChangesOnlyAsDestination : Obligations.RegisterChangesOnlyAsDestination := by
  intro s t n h hf hn
  rcases step_stops_or_executes h hf with ⟨-, heq⟩ | ⟨hr, i, hd, he⟩
  · rw [heq] at hn
    exact absurd rfl hn
  · obtain ⟨hs, hw, ha⟩ := exec_changes_readReg he hf hn
    obtain ⟨hlo, hhi⟩ := opField_of_isWriting hd hw
    exact ⟨hr, hs, hlo, hhi, aField_of_decodeFirst hd ha ▸ encodeOperand_reg_toNat n⟩

/-- Settles O37: a step that changes `ov` executes an instruction that sets it or stores to it. -/
theorem ovChangesOnlyAsTheRuleSays : Obligations.OvChangesOnlyAsTheRuleSays := by
  intro s t h hf hne
  rcases step_stops_or_executes h hf with ⟨-, heq⟩ | ⟨hr, i, hd, he⟩
  · rw [heq] at hne
    exact absurd rfl hne
  · obtain ⟨hs, hset | ⟨hw, ha⟩⟩ := exec_changes_ov he hf hne
    · obtain ⟨hop, -⟩ := decodeFirst_fields hd
      exact ⟨hr, hs, .inl (hop ▸ i.setsOv_iff_opcode.mp hset)⟩
    · obtain ⟨hlo, hhi⟩ := opField_of_isWriting hd hw
      exact ⟨hr, hs, .inr ⟨hlo, hhi, congrArg BitVec.toNat (aField_of_decodeFirst hd ha)⟩⟩

/-- Settles O39: `sp` after the instruction that the step executes, which `exec_moves_sp` gives. -/
theorem spMovesOnlyAsTheRuleSays : Obligations.SpMovesOnlyAsTheRuleSays := by
  intro s t _ h ht
  obtain ⟨i, hd, he⟩ := step_running_executes h ht
  exact ⟨i, hd, exec_moves_sp he (.inl ht)⟩

end Machine

end Sys2Proof

/-! ## Memory

A written location reads back, a memory word changes only where an instruction stores, and a store is what the next fetch reads
(spec/20_memory.md). -/

namespace Sys2Proof.Machine

/-! ### Reading a location after a write (R34, R91, R92) -/

section

variable (s : State)

theorem State.locRead_locWrite_same {l : Loc} (v : Word) (hwf : s.mem.wf = true) (hl : l.isLit = false) :
    (s.locWrite l v).locRead l = v := by
  cases l with
  | reg n => exact s.readReg_writeReg_same n v
  | mem k => exact s.readMem_writeMem_same hwf k v
  | sp | pc | ov => rfl
  | lit n => cases hl

theorem State.locRead_locWrite_other {l m : Loc} (v : Word) (h : m ≠ l) :
    (s.locWrite l v).locRead m = s.locRead m := by
  cases m with
  | reg n => exact s.locWrite_readReg l v n h.symm
  | mem k => exact s.locWrite_readMem l v k h.symm
  | sp => exact s.locWrite_sp l v h.symm
  | pc => exact s.locWrite_pc l v h.symm
  | ov => exact s.locWrite_ov l v h.symm
  | lit n => rfl

theorem State.locWrite_literal_run {l : Loc} (v : Word) (hl : l.isLit = true) :
    (s.locWrite l v).run = .faulted .illegalWriteTarget := by
  cases l with
  | lit n => rfl
  | reg | mem | sp | pc | ov => cases hl

/-! ### Reading memory after a commit and after a push (R17, R93) -/

/-- With a memory word as destination that word becomes the result, whether or not the instruction sets `ov` after it. -/
theorem State.commit_readMem_same (hwf : s.mem.wf = true) (k : Word) (r : AluResult) :
    (s.commit (.mem k) r).readMem k = r.result := by
  rw [State.commit_eq]
  exact s.readMem_writeMem_same hwf k r.result

theorem State.push_readMem_same (hwf : s.mem.wf = true) (v : Word) : (s.push v).readMem (s.sp - 1) = v :=
  (s.setSp (s.sp - 1)).readMem_writeMem_same hwf _ v

theorem State.push_readMem_other (v : Word) {k : Word} (h : k ≠ s.sp - 1) : (s.push v).readMem k = s.readMem k :=
  (s.setSp (s.sp - 1)).readMem_writeMem_other _ k v h

/-! ### Where JSR pushes (R151) -/

/-- The word JSR pushes to is the one below the stack top that its operand leaves. -/
theorem State.resolved_jsr_sp (b : Operand) : (s.resolved (.jsr b)).sp = s.sp + b.spMove := by
  simp [Instr.spMove, Instr.operandA, Instr.operandB]

/-- JSR, executed, answers the resolved state with the return address pushed and `pc` at the target. -/
theorem exec_jsr_pushes (b : Operand) (hs : s.skip = false) :
    exec (.jsr b) s =
      .next (((s.resolved (.jsr b)).push (s.resolved (.jsr b)).pc).setPc
        ((s.resolved (.jsr b)).locRead (resolve b s).loc)) := by
  rw [exec_jsr, execJsr_calls hs, resolve_state_eq_resolved]

end

/-! ### What an instruction does to memory -/

/-- Every instruction answers a next state, whatever the state and the operands. -/
theorem exec_answers_next (i : Instr) (s : State) : ∃ t, exec i s = .next t := by
  rcases exec_cases i s with ⟨-, he⟩ | ⟨-, -, a, -, ⟨-, he⟩ | ⟨-, r, -, he⟩⟩ | ⟨-, -, a, armed, -, he⟩ | ⟨-, b, -, he⟩ <;>
    exact ⟨_, he⟩

/-- A memory word changes only as the destination of a writing instruction, or by JSR's push, that executes (R33). -/
theorem exec_changes_readMem {i : Instr} {s t : State} {k : Word} (h : exec i s = .next t) (hf : t.notFaulted)
    (hk : t.readMem k ≠ s.readMem k) :
    s.skip = false ∧
      ((i.isWriting = true ∧ ∃ a, i.operandA = some a ∧ (resolve a s).loc = .mem k) ∨
        ∃ b, i = .jsr b ∧ k = s.sp + b.spMove - 1) := by
  rcases exec_notFaulted_cases h hf with ⟨-, rfl⟩ | ⟨hs, hw, a, ha, r, -, -, rfl⟩ | ⟨-, -, armed, rfl⟩ |
    ⟨hs, b, rfl, rfl⟩
  · simp at hk
  · refine ⟨hs, .inl ⟨hw, a, ha, ?_⟩⟩
    by_contra hloc
    exact hk (State.commit_readMem _ _ r k hloc)
  · simp at hk
  · refine ⟨hs, .inr ⟨b, rfl, ?_⟩⟩
    by_contra htop
    rw [← s.resolved_jsr_sp] at htop
    exact hk (State.push_readMem_other _ _ htop)

/-- A writing instruction whose destination is the memory word `k` stores its result there and goes on to the next
instruction. -/
theorem exec_stores_readMem {i : Instr} {a : Operand} {s : State} {k : Word} (hw : i.isWriting = true)
    (ha : i.operandA = some a) (hwf : s.mem.wf = true) (hs : s.skip = false) (hloc : (resolve a s).loc = .mem k) :
    ∃ t, exec i s = .next t ∧ t.pc = (s.resolved i).pc ∧ i.storedValue s = some (t.readMem k) := by
  have hl : a.isLit = false := by rw [← resolve_isLit a s, hloc]; rfl
  obtain ⟨t, ht⟩ := exec_answers_next i s
  obtain ⟨r, -, hv, rfl⟩ := exec_commits hw ha hl hs ht
  refine ⟨_, ht, ?_, ?_⟩
  · exact State.commit_pc _ _ r (by simp [hloc])
  · rw [hv, hloc, (s.resolved i).commit_readMem_same hwf]

/-! ### The statements -/

/-- Settles O18: a location reads back by its own storage class, and every other one by the frame of the write. -/
theorem writtenLocationReadsBack : Obligations.WrittenLocationReadsBack := by
  intro s l v hwf
  refine ⟨fun hl => ⟨?_, fun m hm => ?_, ?_, ?_⟩, s.locWrite_literal_run v⟩
  · exact s.locRead_locWrite_same v hwf hl
  · exact s.locRead_locWrite_other v hm
  · exact s.locWrite_skip l v
  · exact s.locWrite_run l v hl

/-- Settles O38: a step that changes a memory word executes an instruction, and the instruction stores or pushes there. -/
theorem memoryChangesOnlyWhereStored : Obligations.MemoryChangesOnlyWhereStored := by
  intro s t k h hf hk
  rcases step_stops_or_executes h hf with ⟨-, heq⟩ | ⟨hr, i, hd, he⟩
  · rw [heq] at hk
    exact absurd rfl hk
  · obtain ⟨hs, hstore⟩ := exec_changes_readMem he hf hk
    exact ⟨hr, hs, i, hd, hstore⟩

/-- Settles O42: the next fetch reads the word at the new `pc`, which is the word the instruction has just stored or pushed. -/
theorem storeIsSeenByTheNextFetch : Obligations.StoreIsSeenByTheNextFetch := by
  constructor
  · intro i a s hw ha hwf hs r hdst
    obtain ⟨t, ht, hpc, hv⟩ := exec_stores_readMem hw ha hwf hs hdst
    have hnext : t.pc = r.state.pc := by rw [hpc, ← resolveBoth_state_eq_resolved ha]
    exact ⟨t, ht, hnext, by rw [State.fetchWord, hnext, hv]⟩
  · intro b s hwf hs r top htarget
    have hpc : (s.resolved (.jsr b)).locRead (resolve b s).loc = top := by
      rw [← resolve_state_eq_resolved]
      exact htarget
    have htop : top = (s.resolved (.jsr b)).sp - 1 := congrArg (· - 1) (s.resolved_jsr_sp b).symm
    refine ⟨_, exec_jsr_pushes s b hs, hpc, ?_⟩
    rw [State.fetchWord, State.setPc_pc, State.setPc_readMem, hpc, htop, (s.resolved (.jsr b)).push_readMem_same hwf]
    simp [Instr.extraWords, Instr.operandA, Instr.operandB]

end Sys2Proof.Machine

/-! ## Encoding

The length of a decoded instruction read off its first word's codes, and the next state that every step answers
(spec/30_encoding.md R54, R59). -/

namespace Sys2Proof

/-! ### How many next words a code asks for (R52, R54) -/

theorem Operand.extraWords_le_one (o : Operand) : o.extraWords ≤ 1 := by
  unfold Operand.extraWords
  split <;> decide

/-- The table of R52 read for R54: the codes whose operand consumes a next word. -/
theorem decodeOperand_extraWords : ∀ c : BitVec 6, (decodeOperand c).extraWords =
    if (0x10 ≤ c.toNat ∧ c.toNat ≤ 0x17) ∨ c.toNat = 0x1E ∨ c.toNat = 0x1F then 1 else 0 := by decide

/-! ### The length of an instruction (R54) -/

theorem Instr.one_le_length (i : Instr) : 1 ≤ i.length := Nat.le_add_right 1 i.extraWords

theorem Instr.extraWords_le_two (i : Instr) : i.extraWords ≤ 2 := by
  have hb := i.operandB.extraWords_le_one
  unfold Instr.extraWords
  cases i.operandA with
  | none => exact Nat.le_succ_of_le (by simpa using hb)
  | some a => exact Nat.add_le_add a.extraWords_le_one hb

theorem Instr.length_le_three (i : Instr) : i.length ≤ 3 := Nat.add_le_add_left i.extraWords_le_two 1

/-- A decoded instruction is one word and the next words of the operands its fields select; in an extended word the `a` field
selects none. -/
theorem length_of_decodeFirst {w : Word} {i : Instr} (h : decodeFirst w = .ok i) :
    i.length = 1 + (if opField w = 0 then 0 else (decodeOperand (aField w)).extraWords) +
      (decodeOperand (bField w)).extraWords := by
  obtain ⟨-, hb, ⟨h0, ha⟩ | ⟨h0, -, rfl⟩⟩ := decodeFirst_fields h
  · rw [if_neg h0]
    simp [Instr.length, Instr.extraWords, ha, hb, Nat.add_assoc]
  · rw [if_pos h0]
    simp [Instr.length, Instr.extraWords, Instr.operandA, Instr.operandB]

/-! ### The statements -/

/-- Settles O5: the length by the operands the two fields select, each operand's next words by its code. -/
theorem lengthIsReadFromTheFirstWord : Obligations.LengthIsReadFromTheFirstWord := by
  intro w i h extra
  refine ⟨?_, i.one_le_length, i.length_le_three⟩
  rw [length_of_decodeFirst h, decodeOperand_extraWords, decodeOperand_extraWords]

/-- Settles O9: a step that executes no instruction answers a next state of its own, and every instruction answers one. -/
theorem everyStepAnswersNext : Obligations.EveryStepAnswersNext := by
  intro s
  unfold Machine.step
  cases s.fetch with
  | stopped => exact ⟨s, rfl⟩
  | sentinel => exact ⟨s.halt, rfl⟩
  | reserved => exact ⟨s.illegalOpcode, rfl⟩
  | instr i => exact Machine.exec_answers_next i s.enterInstr

end Sys2Proof

/-! ## Step and operands

The instruction a step executes, what a pending skip makes of it, and what each operand code designates
(spec/40_step_and_operands.md). -/

namespace Sys2Proof.Machine

/-! ### The step that executes an instruction (R70, R74) -/

/-- Past the run state and the sentinel tests, the step is the decoded instruction run past its first word. -/
theorem step_eq_exec {s : State} {i : Instr} (hr : s.run = .running) (hw : s.readMem s.pc ≠ s.cfg.haltSentinel)
    (hd : decodeFirst (s.readMem s.pc) = .ok i) : step s = exec i s.enterInstr := by
  have hfetch : s.fetch = .instr i := by
    rw [← State.fetchWord] at hw hd
    simp [State.fetch, hr, hw, hd]
  rw [step, hfetch]

/-- Entering an instruction and then passing its next words takes `pc` past the whole instruction. -/
theorem State.enterInstr_pc_add_extraWords (s : State) (i : Instr) :
    s.enterInstr.pc + BitVec.ofNat 16 i.extraWords = s.pc + BitVec.ofNat 16 i.length := by
  simp [Instr.length, BitVec.ofNat_add, BitVec.add_assoc]

/-! ### Resolving an operand by its code (R52, R78) -/

/-- Resolving the code of an operand is resolving that operand. -/
theorem resolve_code (o : Operand) (s : State) : resolve (decodeOperand (encodeOperand o)) s = resolve o s := by
  rw [decodeOperand_encodeOperand]

/-- A short literal reads as its own number (R90). -/
theorem State.locRead_lit_toNat (s : State) (n : Fin 32) : (s.locRead (.lit n)).toNat = n :=
  Nat.mod_eq_of_lt (n.isLt.trans (by decide))

/-! ### The statements -/

/-- Settles O6: the fetch finds the instruction, and entering it is the `pc` advance. -/
theorem stepRunsTheDecodedInstruction : Obligations.StepRunsTheDecodedInstruction :=
  fun _ _ hr hw hd => step_eq_exec hr hw hd

/-- Settles O30: the step executes the instruction, and `exec_skipped` says what is left of it under a pending skip. -/
theorem skippedInstructionOnlyAdvances : Obligations.SkippedInstructionOnlyAdvances := by
  intro s i hr hw hd hs
  rw [step_eq_exec hr hw hd, exec_skipped i (s := s.enterInstr) hs, s.enterInstr_pc_add_extraWords i]
  rfl

/-- Settles O16: each number in the table is the code of an operand, whose arm of the resolver is what the table says. -/
theorem operandCodesResolveAsTheTableSays : Obligations.OperandCodesResolveAsTheTableSays := by
  intro s
  exact ⟨fun n => ⟨resolve_code (.reg n) s, resolve_code (.atReg n) s, resolve_code (.atNextPlusReg n) s⟩,
    resolve_code .pop s, resolve_code .peek s, resolve_code .push s,
    resolve_code .sp s, resolve_code .pc s, resolve_code .ov s,
    resolve_code .atNext s, fun n => resolve_code (.lit n) s,
    fun _ => rfl, fun _ => rfl, rfl, rfl, rfl, s.locRead_lit_toNat⟩

end Sys2Proof.Machine

/-! ## Move and arithmetic

What a writing instruction leaves when it sets no `ov` or has a literal destination, and the copy that SET makes
(spec/41_move_arith.md). -/

namespace Sys2Proof.Machine

/-! ### The two ends of a writing instruction (R93, R94, R100) -/

/-- Committing a result that carries no `ov` is the write to the destination alone. -/
theorem State.commit_plain (s : State) (l : Loc) (v : Word) : s.commit l (.plain v) = s.locWrite l v := rfl

/-- A writing instruction whose destination is a short literal raises IllegalWriteTarget, whatever it computes (R162). -/
theorem execWriting_literal_faults {a b : Operand} {alu : Word → Word → AluResult} {s : State} (hs : s.skip = false)
    (ha : a.isLit = true) : ∃ t, execWriting a b alu s = .next t ∧ t.run = .faulted .illegalWriteTarget :=
  ⟨_, execWriting_literal hs ha, State.raise_run _ _⟩

/-! ### The statements -/

/-- Settles O19: SET commits the source's value without an `ov`, and faults on a literal destination as every writing
instruction does. -/
theorem setCopiesTheSource : Obligations.SetCopiesTheSource := by
  intro a b s hs r
  rw [exec_set]
  constructor
  · intro ha
    rw [execWriting_commits hs ha, State.commit_plain]
  · exact execWriting_literal_faults hs

end Sys2Proof.Machine

/-! ## Conditionals

The next state a conditional leaves: the resolved state with the outcome of its condition in the flag
(spec/43_conditional_skip.md). -/

namespace Sys2Proof.Machine

/-- A conditional that executes answers the resolved state, with only the flag left to its condition (R140). -/
theorem exec_conditional_setSkip_resolved {i : Instr} {s : State} (hc : i.isConditional = true) (hs : s.skip = false) :
    ∃ armed, exec i s = .next ((s.resolved i).setSkip armed) := by
  obtain ⟨a, condition, ha, he⟩ := exec_conditional hc
  exact ⟨_, by rw [he, execConditional_arms hs, resolveBoth_state_eq_resolved ha]⟩

/-- Settles O35: each clause is a field of the resolved state, which setting the flag leaves alone. -/
theorem conditionalsWriteNoLocation : Obligations.ConditionalsWriteNoLocation := by
  intro i s hc hs
  obtain ⟨armed, he⟩ := exec_conditional_setSkip_resolved hc hs
  exact ⟨_, he, rfl, rfl, fun _ => rfl, rfl, rfl, rfl, rfl⟩

end Sys2Proof.Machine

/-! ## JSR and control transfer

The call and its return, and where `pc` goes in a step that leaves the machine running (spec/44_extended_jsr.md). -/

namespace Sys2Proof.Machine

/-! ### The return from a call (R154) -/

/-- SET PC, POP, executed, jumps to the word on top of the stack and pops it. -/
theorem exec_set_pc_pop {u : State} (hs : u.skip = false) :
    exec (.set .pc .pop) u = .next ((u.setSp (u.sp + 1)).setPc (u.readMem u.sp)) :=
  (setCopiesTheSource .pc .pop u hs).1 rfl

/-- After a JSR the word on top of the stack is the address after the call, and the stack lies one below where the operand
left it (R151). -/
theorem exec_jsr_top {b : Operand} {s t : State} (hwf : s.mem.wf = true) (hs : s.skip = false)
    (h : exec (.jsr b) s = .next t) :
    t.readMem t.sp = s.pc + BitVec.ofNat 16 b.extraWords ∧ t.sp + 1 = s.sp + b.spMove := by
  cases (exec_jsr_pushes s b hs).symm.trans h
  constructor
  · rw [State.setPc_readMem, State.setPc_sp, State.push_sp, (s.resolved (.jsr b)).push_readMem_same hwf]
    simp [Instr.extraWords, Instr.operandA, Instr.operandB]
  · rw [State.setPc_sp, State.push_sp, s.resolved_jsr_sp, BitVec.sub_add_cancel]

/-! ### Where `pc` goes (R14, R155) -/

/-- With `pc` as destination it becomes the result, whether or not the instruction sets `ov` after it. -/
theorem State.commit_pc_same (s : State) (r : AluResult) : (s.commit .pc r).pc = r.result := by
  rw [State.commit_eq]
  rfl

section

variable {i : Instr} {s t : State}

/-- JSR, executed, goes to the value its operand has before the push (R151). -/
theorem exec_jsr_pc {b : Operand} (hs : s.skip = false) (h : exec (.jsr b) s = .next t) :
    t.pc = (resolve b s).state.locRead (resolve b s).loc := by
  cases (exec_jsr_pushes s b hs).symm.trans h
  rw [State.setPc_pc, resolve_state_eq_resolved]

/-- A writing instruction with destination PC, executed, goes to its result. -/
theorem exec_stores_pc (hw : i.isWriting = true) (ha : i.operandA = some .pc) (hs : s.skip = false)
    (h : exec i s = .next t) : i.storedValue s = some t.pc := by
  obtain ⟨r, -, hv, rfl⟩ := exec_commits hw ha rfl hs h
  exact hv.trans (congrArg some (State.commit_pc_same _ r).symm)

/-- Every other instruction, and every skipped one, goes past its next words, if it raises no fault. -/
theorem exec_passes_extraWords (h : exec i s = .next t) (hf : t.notFaulted)
    (hother : s.skip = false → (∀ b, i ≠ .jsr b) ∧ ¬(i.isWriting = true ∧ i.operandA = some .pc)) :
    t.pc = s.pc + BitVec.ofNat 16 i.extraWords := by
  rcases exec_notFaulted_cases h hf with ⟨-, rfl⟩ | ⟨hs, hw, a, ha, r, -, -, rfl⟩ | ⟨-, -, armed, rfl⟩ |
    ⟨hs, b, rfl, rfl⟩
  · rfl
  · have hpc : a ≠ .pc := fun e => (hother hs).2 ⟨hw, e ▸ ha⟩
    exact State.commit_pc _ _ r ((resolve_eq_pc a s).not.mpr hpc)
  · rfl
  · exact absurd rfl ((hother hs).1 b)

end

/-! ### The statements -/

/-- Settles O33: the return pops the word that the call left on top of the stack. -/
theorem setPcPopReturnsFromJsr : Obligations.SetPcPopReturnsFromJsr := by
  intro b s t u hwf hs h hu hsp hmem
  obtain ⟨htop, hnext⟩ := exec_jsr_top hwf hs h
  have hread : u.readMem u.sp = t.readMem t.sp := by rw [State.readMem, State.readMem, hsp, hmem]
  exact ⟨_, exec_set_pc_pop hu, hread.trans htop, hsp ▸ hnext, rfl, rfl, rfl⟩

/-- Settles O40: the instruction that the step executes or skips is a JSR, stores to PC, or is one of the others, and each of the
three has its lemma on `pc`. -/
theorem pcChangesOnlyInTheListedWays : Obligations.PcChangesOnlyInTheListedWays := by
  intro s t _ h ht
  obtain ⟨i, hd, he⟩ := step_running_executes h ht
  refine ⟨i, hd, ?_⟩
  by_cases hother : s.skip = false → (∀ b, i ≠ .jsr b) ∧ ¬(i.isWriting = true ∧ i.operandA = some .pc)
  · have hpc := exec_passes_extraWords he (.inl ht) hother
    exact .inr (.inr ⟨hother, hpc.trans (s.enterInstr_pc_add_extraWords i)⟩)
  · obtain ⟨hs, hlisted⟩ := Classical.not_imp.mp hother
    rcases not_and_or.mp hlisted with hjsr | hstore
    · obtain ⟨b, rfl⟩ := not_forall_not.mp hjsr
      exact .inl ⟨hs, b, rfl, exec_jsr_pc hs he⟩
    · obtain ⟨hw, ha⟩ := not_not.mp hstore
      exact .inr (.inl ⟨hs, hw, ha, exec_stores_pc hw ha hs he⟩)

end Sys2Proof.Machine

/-! ## Exceptions

The invariant over a step: no instruction breaks the canonical form of memory, and none halts the machine
(spec/60_exceptions.md R166). -/

namespace Sys2Proof.Machine

/-! ### The canonical form through the stores of an instruction (R93, R151) -/

section

variable {s : State}

theorem State.commit_wf (hwf : s.mem.wf = true) (l : Loc) (r : AluResult) : (s.commit l r).mem.wf = true := by
  rw [State.commit_eq]
  exact s.locWrite_wf l r.result hwf

theorem State.push_wf (hwf : s.mem.wf = true) (v : Word) : (s.push v).mem.wf = true :=
  Memory.wf_write hwf (s.sp - 1) v

end

/-! ### What every instruction keeps, a faulting one included -/

section

variable {i : Instr} {s t : State}

/-- Past the resolved state, whose memory is that of `s`, only a commit or a push stores, and each keeps the form. -/
theorem exec_keeps_wf (h : exec i s = .next t) (hwf : s.mem.wf = true) : t.mem.wf = true := by
  rcases exec_cases i s with ⟨-, he⟩ | ⟨-, -, a, ha, ⟨-, he⟩ | ⟨-, r, -, he⟩⟩ | ⟨-, -, a, armed, ha, he⟩ | ⟨-, b, -, he⟩
  · cases he.symm.trans h
    exact hwf
  · rw [resolveBoth_state_eq_resolved ha] at he
    cases he.symm.trans h
    exact hwf
  · rw [resolveBoth_state_eq_resolved ha] at he
    cases he.symm.trans h
    exact State.commit_wf (s := s.resolved i) hwf _ r
  · rw [resolveBoth_state_eq_resolved ha] at he
    cases he.symm.trans h
    exact hwf
  · rw [resolve_state_eq_resolved] at he
    cases he.symm.trans h
    exact State.push_wf (s := s.resolved (.jsr b)) hwf _

/-- An instruction leaves the run state as it is, or raises IllegalWriteTarget (R162). -/
theorem exec_keeps_run_or_faults (h : exec i s = .next t) :
    t.run = s.run ∨ t.run = .faulted .illegalWriteTarget := by
  rcases exec_cases i s with ⟨-, he⟩ | ⟨-, -, a, ha, ⟨-, he⟩ | ⟨hl, r, -, he⟩⟩ | ⟨-, -, a, armed, ha, he⟩ | ⟨-, b, -, he⟩
  · cases he.symm.trans h
    exact .inl rfl
  · cases he.symm.trans h
    exact .inr rfl
  · rw [resolveBoth_state_eq_resolved ha, resolveBoth_dst] at he
    cases he.symm.trans h
    exact .inl (State.commit_run _ _ r ((resolve_isLit a s).trans hl))
  · rw [resolveBoth_state_eq_resolved ha] at he
    cases he.symm.trans h
    exact .inl rfl
  · rw [resolve_state_eq_resolved] at he
    cases he.symm.trans h
    exact .inl rfl

/-- Only the sentinel halts a machine: an instruction that a running machine executes or skips does not (R166, R168). -/
theorem exec_never_halts (h : exec i s = .next t) (hr : s.run = .running) : t.run ≠ .halted := by
  rcases exec_keeps_run_or_faults h with ht | ht <;> simp [ht, hr]

end

/-! ### The statement -/

/-- Settles O15: by the four ends of a step, of which only the sentinel's halts a running machine, with `pc` on the sentinel. -/
theorem everyStepKeepsInv : Obligations.EveryStepKeepsInv := by
  rintro s t ⟨hwf, hhalt⟩ h
  rcases step_cases h with ⟨-, rfl⟩ | ⟨-, hw, rfl⟩ | ⟨-, -, -, rfl⟩ | ⟨hr, -, i, -, he⟩
  · exact ⟨hwf, hhalt⟩
  · exact ⟨hwf, fun _ => hw⟩
  · exact ⟨hwf, fun ht => by cases ht⟩
  · exact ⟨exec_keeps_wf he hwf, fun ht => absurd ht (exec_never_halts he hr)⟩

end Sys2Proof.Machine

/-! ## The round trips of decoding

Decoding and encoding undo each other, on first words and on whole instructions, and the words that decode to nothing are the
reserved ones (spec/30_encoding.md R50 to R59). -/

namespace Sys2Proof

/-! ### First words (R51, R55, R56) -/

/-- By the instruction's row: its opcode selects the row, and the two code fields give its operands back. -/
theorem decodeFirst_encodeFirst (i : Instr) : decodeFirst (encodeFirst i) = .ok i := by
  cases i with
  | jsr b =>
    rw [encodeFirst, decodeFirst_extended (opField_firstWord _ _ _)]
    simp [decodeOperand_encodeOperand]
  | set a b | add a b | sub a b | mul a b | div a b | mod a b | shl a b | shr a b | and a b | bor a b | xor a b
  | ife a b | ifn a b | ifg a b | ifb a b =>
    simp [encodeFirst, decodeFirst, opcodeRows, arithmeticRows, logicRows, conditionalRows, and_opMask,
      decodeOperand_encodeOperand]

theorem encodeFirst_of_decodeFirst {w : Word} {i : Instr} (h : decodeFirst w = .ok i) : encodeFirst i = w := by
  obtain ⟨hop, hb, ⟨-, ha⟩ | ⟨h0, hsel, rfl⟩⟩ := decodeFirst_fields h
  · rw [encodeFirst_binary ha, hop, hb, encodeOperand_decodeOperand, encodeOperand_decodeOperand, firstWord_fields]
  · rw [encodeFirst, encodeOperand_decodeOperand, ← hsel, ← h0, firstWord_fields]

/-- A word decodes to no instruction exactly if it is an extended word with another selector than JSR's (R57, R59). -/
theorem decodeFirst_eq_error_iff (w : Word) :
    (∃ e, decodeFirst w = .error e) ↔ opField w = 0 ∧ aField w ≠ jsrSelector := by
  by_cases h0 : opField w = 0
  · rw [decodeFirst_extended h0]
    by_cases hsel : aField w = jsrSelector <;> simp [h0, hsel]
  · obtain ⟨i, hi, -⟩ := decodeFirst_binary h0
    exact iff_of_false (by simp [hi]) fun hres => h0 hres.1

/-! ### Words in a stream (R31, R54) -/

/-- When the head of a stream decodes, the instruction takes as many of the words after it as its operands consume. -/
theorem decode_cons {w : Word} {i : Instr} (h : decodeFirst w = .ok i) {extra : List Word}
    (hlen : extra.length = i.extraWords) (rest : List Word) : decode (w :: (extra ++ rest)) = .ok (⟨i, extra⟩, rest) := by
  simp [decode, h, ← hlen]

/-! ### The statements -/

/-- Settles O2: the first word decodes to the instruction, which takes just its own next words off the stream. -/
theorem decodeInvertsEncode : Obligations.DecodeInvertsEncode := by
  rintro ⟨i, extra⟩ rest hwf
  have hlen : extra.length = i.extraWords := by simpa [InstrWords.wellFormed] using hwf
  exact decode_cons (decodeFirst_encodeFirst i) hlen rest

/-- Settles O3: an instruction decoded from a word has the fields of that word, and they make up the word. -/
theorem encodeInvertsDecode : Obligations.EncodeInvertsDecode :=
  fun _ _ h => encodeFirst_of_decodeFirst h

/-- Settles O4: a word decodes to an instruction or to an error, and to an error exactly if it is reserved. -/
theorem rejectedWordsAreTheReservedOnes : Obligations.RejectedWordsAreTheReservedOnes := by
  intro w
  rw [← decodeFirst_eq_error_iff]
  cases decodeFirst w <;> simp

/-- Settles O1, by evaluating the decoder on the nine words. -/
theorem specWordsDecodeToTheirInstructions : Obligations.SpecWordsDecodeToTheirInstructions := by
  unfold Obligations.SpecWordsDecodeToTheirInstructions
  decide

end Sys2Proof

/-! ## How a run ends

The stopped machine, the sentinel, the two faults, the report of a step, and the parameters no step changes
(spec/40_step_and_operands.md section 1, spec/60_exceptions.md R161 to R168). -/

namespace Sys2Proof

/-- The literal codes are those from 0x20 up (R52). -/
theorem decodeOperand_isLit : ∀ c : BitVec 6, (decodeOperand c).isLit = true ↔ 0x20 ≤ c.toNat := by decide

namespace Machine

/-! ### The steps that execute no instruction (R71, R73) -/

section

variable {s : State}

theorem step_stopped (hr : s.run ≠ .running) : step s = .next s := by
  have hfetch : s.fetch = .stopped := by
    unfold State.fetch
    cases h : s.run with
    | running => exact absurd h hr
    | halted | faulted k => rfl
  rw [step, hfetch]

theorem step_sentinel (hr : s.run = .running) (hw : s.readMem s.pc = s.cfg.haltSentinel) : step s = .next s.halt := by
  have hfetch : s.fetch = .sentinel := by
    rw [← State.fetchWord] at hw
    simp [State.fetch, hr, hw]
  rw [step, hfetch]

end

/-- A run of `k + 1` steps is a run of `k` steps from where the first one leads. -/
theorem run_succ_of_step {M : Host.Core} {s t : M.State} (h : M.step s = .next t) (k : Nat) :
    M.run (k + 1) s = M.run k t := by
  rw [Host.Core.run, h]

/-! ### Which instructions fault, and what none changes (R5, R162) -/

section

variable {i : Instr} {s t : State}

/-- Of a running machine, exactly a writing instruction with a short-literal destination that executes raises
IllegalWriteTarget. -/
theorem exec_illegalWriteTarget_iff (h : exec i s = .next t) (hr : s.run = .running) :
    t.run = .faulted .illegalWriteTarget ↔
      s.skip = false ∧ i.isWriting = true ∧ ∃ a, i.operandA = some a ∧ a.isLit = true := by
  rcases exec_cases i s with ⟨hs, he⟩ | ⟨hs, hw, a, ha, ⟨hl, he⟩ | ⟨hl, r, -, he⟩⟩ | ⟨-, hc, a, armed, ha, he⟩ |
    ⟨-, b, rfl, he⟩
  · cases he.symm.trans h
    simp [hr, hs]
  · cases he.symm.trans h
    simp [hs, hw, ha, hl]
  · rw [resolveBoth_state_eq_resolved ha, resolveBoth_dst] at he
    cases he.symm.trans h
    have hrun := State.commit_run (s.resolved i) _ r ((resolve_isLit a s).trans hl)
    simp [hrun, hr, ha, hl]
  · rw [resolveBoth_state_eq_resolved ha] at he
    cases he.symm.trans h
    simp [hr, Instr.not_isWriting_of_isConditional hc]
  · rw [resolve_state_eq_resolved] at he
    cases he.symm.trans h
    simp [hr, Instr.isWriting, State.push]

/-- The same read off the first word the instruction is decoded from: its opcode and its `a` code. -/
theorem writes_literal_iff_fields {w : Word} (hd : decodeFirst w = .ok i) :
    (i.isWriting = true ∧ ∃ a, i.operandA = some a ∧ a.isLit = true) ↔
      1 ≤ (opField w).toNat ∧ (opField w).toNat ≤ 0xB ∧ 0x20 ≤ (aField w).toNat := by
  obtain ⟨hop, -, ⟨-, ha⟩ | ⟨h0, -, rfl⟩⟩ := decodeFirst_fields hd
  · simp [Instr.isWriting_iff_opcode, hop, ha, decodeOperand_isLit, and_assoc]
  · simp [Instr.isWriting, h0]

/-- Every instruction leaves the parameters alone, a faulting one included. -/
theorem exec_keeps_cfg (h : exec i s = .next t) : t.cfg = s.cfg := by
  rcases exec_cases i s with ⟨-, he⟩ | ⟨-, -, a, ha, ⟨-, he⟩ | ⟨-, r, -, he⟩⟩ | ⟨-, -, a, armed, ha, he⟩ | ⟨-, b, -, he⟩
  · cases he.symm.trans h
    rfl
  · rw [resolveBoth_state_eq_resolved ha] at he
    cases he.symm.trans h
    rfl
  · rw [resolveBoth_state_eq_resolved ha] at he
    cases he.symm.trans h
    exact State.commit_cfg (s.resolved i) _ r
  · rw [resolveBoth_state_eq_resolved ha] at he
    cases he.symm.trans h
    rfl
  · rw [resolve_state_eq_resolved] at he
    cases he.symm.trans h
    rfl

end

/-! ### The report of a step (R167) -/

theorem stepReported_eq {s t : State} (h : step s = .next t) : stepReported s = .next (t, stepResult s t) := by
  rw [stepReported, h]

theorem stepResult_stopped {s : State} (hr : s.run ≠ .running) (t : State) : stepResult s t = .stopped s.run := by
  unfold stepResult
  cases h : s.run with
  | running => exact absurd h hr
  | halted | faulted k => rfl

/-- The report on a running machine, for each run state the step can end in. -/
theorem stepResult_running {s : State} (hr : s.run = .running) (t : State) :
    (stepResult s t = .ok ↔ t.run = .running) ∧ (stepResult s t = .noMoreInstructions ↔ t.run = .halted) ∧
      ∀ k, stepResult s t = .error k (s.readMem s.pc) s.pc ↔ t.run = .faulted k := by
  unfold stepResult
  rw [hr]
  cases t.run <;> simp [State.fetchWord]

/-! ### The statements -/

/-- Settles O8, by induction on the number of steps, each of which answers the same state. -/
theorem stoppedMachineStaysAsItIs : Obligations.StoppedMachineStaysAsItIs := by
  intro s n hr
  induction n with
  | zero => rfl
  | succ n ih =>
    exact (run_succ_of_step (M := Sys2Proof.core) (step_stopped hr) n).trans ih

/-- Settles O7: the step on the sentinel is the halt, which is the update of the run state. -/
theorem sentinelHaltsAndChangesNothingElse : Obligations.SentinelHaltsAndChangesNothingElse :=
  fun _ hr hw => step_sentinel hr hw

/-- Settles O10: the sentinel halts, a reserved word raises IllegalOpcode, and an instruction goes on or raises IllegalWriteTarget;
which of them the word is, its fields say. -/
theorem howAStepEndsTheRun : Obligations.HowAStepEndsTheRun := by
  intro s t hr h w
  rcases step_cases h with ⟨hne, -⟩ | ⟨-, hw, rfl⟩ | ⟨-, hw, herr, rfl⟩ | ⟨-, hw, i, hd, he⟩
  · exact absurd hr hne
  · have hsentinel : w = s.cfg.haltSentinel := hw
    simp [hsentinel]
  · have hne : w ≠ s.cfg.haltSentinel := hw
    obtain ⟨h0, hsel⟩ := (decodeFirst_eq_error_iff w).mp herr
    simp [State.illegalOpcode, hne, h0, hsel]
  · have hne : w ≠ s.cfg.haltSentinel := hw
    have hdecoded : ¬(opField w = 0 ∧ aField w ≠ jsrSelector) :=
      (rejectedWordsAreTheReservedOnes w).mp ⟨i, hd⟩
    have hwrite := exec_illegalWriteTarget_iff he hr
    rw [writes_literal_iff_fields hd] at hwrite
    refine ⟨?_, ?_, ?_⟩
    · exact iff_of_false (exec_never_halts he hr) hne
    · refine iff_of_false ?_ fun hres => hdecoded hres.2
      rcases exec_keeps_run_or_faults he with ht | ht <;> simp [ht, hr]
    · rw [hwrite]
      exact ⟨fun ⟨hs, hlo, hhi, hlit⟩ => ⟨hne, hlo, hhi, hlit, hs⟩,
        fun ⟨_, hlo, hhi, hlit, hs⟩ => ⟨hs, hlo, hhi, hlit⟩⟩

/-- Settles O11: every step answers a state, and the report is a function of the run state before it and after it. -/
theorem stepReportsHowItEnded : Obligations.StepReportsHowItEnded := by
  intro s
  obtain ⟨t, ht⟩ := everyStepAnswersNext s
  refine ⟨t, stepResult s t, stepReported_eq ht, ht, fun hr => ?_, fun hr => stepResult_running hr t⟩
  cases (step_stopped hr).symm.trans ht
  exact ⟨stepResult_stopped hr s, rfl⟩

/-- Settles O41: the steps that execute nothing change the run state and `pc` at most, and no instruction changes `cfg`. -/
theorem noStepChangesTheParameters : Obligations.NoStepChangesTheParameters := by
  intro s t h
  rcases step_cases h with ⟨-, rfl⟩ | ⟨-, -, rfl⟩ | ⟨-, -, -, rfl⟩ | ⟨-, -, i, -, he⟩
  · rfl
  · rfl
  · rfl
  · exact (exec_keeps_cfg he).trans s.enterInstr_cfg

end Machine

end Sys2Proof

/-! ## Results of the writing instructions

The value each of the ten instructions after SET stores and the value it leaves in `ov`, as operations on words
(spec/41_move_arith.md, spec/42_shift_logic.md). -/

namespace Sys2Proof.Machine

/-! ### The overflow of an exact result (R6, R102 to R104, R121) -/

section

variable (d v : Word)

theorem hi16_natCast (n : Nat) : hi16 n = BitVec.ofNat 16 (n / 65536) := by
  exact_mod_cast BitVec.ofInt_natCast 16 (n / 65536)

theorem trunc16_trueSum_eq_mod :
    trunc16 (trueSum d v) = BitVec.ofNat 16 ((d.toNat + v.toNat) % 65536) := by
  rw [trueSum, ← Nat.cast_add, trunc16_natCast]
  exact BitVec.eq_of_toNat_eq (by simp)

/-- The carry of a sum. -/
theorem hi16_trueSum : hi16 (trueSum d v) = if 65536 ≤ d.toNat + v.toNat then 1 else 0 := by
  have hd := d.isLt
  have hv := v.isLt
  rw [trueSum, ← Nat.cast_add, hi16_natCast]
  split
  · next hcarry =>
    rw [show (d.toNat + v.toNat) / 65536 = 1 by omega]
    rfl
  · next hcarry =>
    rw [show (d.toNat + v.toNat) / 65536 = 0 by omega]
    rfl

/-- The borrow of a difference: its quotient by 65536 rounds down to -1. -/
theorem hi16_trueDifference : hi16 (trueDifference d v) = if d.toNat < v.toNat then 0xFFFF else 0 := by
  have hd := d.isLt
  have hv := v.isLt
  rw [hi16, trueDifference]
  split
  · next hborrow =>
    rw [show ((d.toNat : Int) - v.toNat) / 65536 = -1 by omega]
    rfl
  · next hborrow =>
    rw [show ((d.toNat : Int) - v.toNat) / 65536 = 0 by omega]
    rfl

/-- The 32-bit product of two words is exact. -/
theorem toNat_wideProduct : (d.setWidth 32 * v.setWidth 32).toNat = d.toNat * v.toNat := by
  have hlt : d.toNat * v.toNat < 2 ^ 16 * 2 ^ 16 := Nat.mul_lt_mul'' d.isLt v.isLt
  rw [BitVec.toNat_mul, BitVec.toNat_setWidth_of_le (by decide), BitVec.toNat_setWidth_of_le (by decide)]
  exact Nat.mod_eq_of_lt hlt

theorem trunc16_trueProduct_eq_low : trunc16 (trueProduct d v) = (d.setWidth 32 * v.setWidth 32).extractLsb' 0 16 := by
  rw [trueProduct, ← Nat.cast_mul, trunc16_natCast, BitVec.extractLsb', toNat_wideProduct, Nat.shiftRight_zero]

theorem hi16_trueProduct_eq_high : hi16 (trueProduct d v) = (d.setWidth 32 * v.setWidth 32).extractLsb' 16 16 := by
  rw [trueProduct, ← Nat.cast_mul, hi16_natCast, BitVec.extractLsb', toNat_wideProduct, Nat.shiftRight_eq_div_pow]

/-- What a left shift by `c` leaves above bit 15: for `c` up to 16 the top `c` bits of the word, beyond that the word shifted by
the rest. -/
theorem hi16_trueShift : hi16 (trueShift d v) =
    if v.toNat ≤ 16 then d >>> (16 - v.toNat) else d <<< (v.toNat - 16) := by
  rw [show trueShift d v = ((d.toNat * 2 ^ v.toNat : Nat) : Int) by simp [trueShift], hi16_natCast]
  generalize v.toNat = c
  split
  · next hc =>
    have hpow : 65536 = 2 ^ (16 - c) * 2 ^ c := by
      rw [← pow_add, Nat.sub_add_cancel hc]
      rfl
    have hdiv : d.toNat * 2 ^ c / 65536 = (d >>> (16 - c)).toNat := by
      rw [hpow, Nat.mul_div_mul_right _ _ (Nat.two_pow_pos c), BitVec.toNat_ushiftRight, Nat.shiftRight_eq_div_pow]
    rw [hdiv, BitVec.ofNat_toNat, BitVec.setWidth_eq]
  · next hc =>
    have hpow : 2 ^ c = 2 ^ (c - 16) * 65536 := by
      rw [show 65536 = 2 ^ 16 from rfl, ← pow_add, Nat.sub_add_cancel (by omega)]
    have hdiv : d.toNat * 2 ^ c / 65536 = d.toNat <<< (c - 16) := by
      rw [hpow, ← Nat.mul_assoc, Nat.mul_div_cancel _ (by decide), Nat.shiftLeft_eq]
    rw [hdiv]
    exact BitVec.eq_of_toNat_eq (by simp)

/-! ### Quotient and remainder by a divisor that is not 0 (R105, R106) -/

theorem toNat_quotient (hv : v ≠ 0) : (quotient d v).toNat = d.toNat / v.toNat := by
  rw [quotient_eq, if_neg hv, BitVec.toNat_udiv]

theorem toNat_remainder (hv : v ≠ 0) : (remainder d v).toNat = d.toNat % v.toNat := by
  rw [remainder_eq, if_neg hv, BitVec.toNat_umod]

theorem toNat_pos_of_ne_zero (hv : v ≠ 0) : 0 < v.toNat :=
  v.toNat_pos.mpr (v.pos_iff_ne_zero.mpr hv)

end

/-! ### What an executing instruction answers (R93, R94, R162) -/

/-- A writing instruction that executes with a short literal as destination raises IllegalWriteTarget. -/
theorem exec_literal_faults {i : Instr} {a : Operand} {s : State} (hw : i.isWriting = true)
    (ha : i.operandA = some a) (hs : s.skip = false) (hl : a.isLit = true) :
    ∃ t, exec i s = .next t ∧ t.run = .faulted .illegalWriteTarget := by
  obtain ⟨a', alu, ha', -, he⟩ := exec_writing hw
  obtain rfl : a' = a := Option.some.inj (ha'.symm.trans ha)
  rw [he]
  exact execWriting_literal_faults hs hl

section

variable {a b : Operand} {s : State} (hs : s.skip = false) (ha : a.isLit = false)

include hs ha

/-- An instruction that sets `ov` stores its result and then its overflow value. -/
theorem execWriting_sets_ov (result ov : Word → Word → Word) :
    let r := resolveBoth a b s
    let dst := r.state.locRead r.dst
    let src := r.state.locRead r.src
    execWriting a b (fun d v => ⟨result d v, some (ov d v)⟩) s =
      .next ((r.state.locWrite r.dst (result dst src)).setOv (ov dst src)) :=
  execWriting_commits hs ha

/-- An instruction with an exact result stores it narrowed, and its overflow after that (R107). -/
theorem execWriting_narrows (f : Word → Word → Int) :
    let r := resolveBoth a b s
    let exactResult := f (r.state.locRead r.dst) (r.state.locRead r.src)
    execWriting a b (fun d v => .exact (f d v)) s =
      .next ((r.state.locWrite r.dst (trunc16 exactResult)).setOv (hi16 exactResult)) :=
  execWriting_commits hs ha

/-- An instruction that leaves `ov` alone only stores its result. -/
theorem execWriting_only_stores (result : Word → Word → Word) :
    let r := resolveBoth a b s
    execWriting a b (fun d v => .plain (result d v)) s =
      .next (r.state.locWrite r.dst (result (r.state.locRead r.dst) (r.state.locRead r.src))) :=
  execWriting_commits hs ha

end

/-! ### The statements -/

/-- Settles O20: the narrowed sum and its carry. -/
theorem addGivesSumAndCarry : Obligations.AddGivesSumAndCarry := by
  intro a b s hs r dst src
  refine ⟨fun ha => ?_, exec_literal_faults rfl rfl hs⟩
  rw [← trunc16_trueSum_eq_mod, ← hi16_trueSum]
  exact execWriting_narrows hs ha _

/-- Settles O21: the narrowed difference and its borrow. -/
theorem subGivesDifferenceAndBorrow : Obligations.SubGivesDifferenceAndBorrow := by
  intro a b s hs r dst src
  refine ⟨fun ha => ?_, exec_literal_faults rfl rfl hs⟩
  rw [← trunc16_trueDifference, ← hi16_trueDifference]
  exact execWriting_narrows hs ha _

/-- Settles O22: the two halves of the exact product, which fits in 32 bits. -/
theorem mulGivesLowAndHighHalf : Obligations.MulGivesLowAndHighHalf := by
  intro a b s hs r product
  refine ⟨fun ha => ?_, exec_literal_faults rfl rfl hs⟩
  rw [← trunc16_trueProduct_eq_low, ← hi16_trueProduct_eq_high]
  exact execWriting_narrows hs ha _

/-- Settles O23: the model's quotient meets both bounds, and is 0 by its own case for a zero divisor. -/
theorem divGivesTheQuotient : Obligations.DivGivesTheQuotient := by
  intro a b s hs r dst src
  refine ⟨fun ha => ⟨quotient dst src, ?_, fun h0 => if_pos h0, fun h0 => ?_⟩, exec_literal_faults rfl rfl hs⟩
  · exact execWriting_sets_ov hs ha quotient ovDiv
  · rw [toNat_quotient dst src h0]
    exact ⟨Nat.div_mul_le_self _ _, (Nat.div_lt_iff_lt_mul (toNat_pos_of_ne_zero src h0)).mp (Nat.lt_succ_self _)⟩

/-- Settles O24: the model's remainder is below the divisor and completes the division, and is 0 for a zero divisor. -/
theorem modGivesTheRemainder : Obligations.ModGivesTheRemainder := by
  intro a b s hs r dst src
  refine ⟨fun ha => ⟨remainder dst src, ?_, fun h0 => if_pos h0, fun h0 => ?_⟩, exec_literal_faults rfl rfl hs⟩
  · exact execWriting_only_stores hs ha remainder
  · rw [toNat_remainder dst src h0]
    exact ⟨Nat.mod_lt _ (toNat_pos_of_ne_zero src h0), (Nat.div_add_mod' _ _).symm⟩

/-- Settles O25: the narrowed true shift, and what it leaves above bit 15. -/
theorem shlGivesTheShiftedWordAndTheBitsShiftedOut : Obligations.ShlGivesTheShiftedWordAndTheBitsShiftedOut := by
  intro a b s hs r dst count
  refine ⟨fun ha => ?_, exec_literal_faults rfl rfl hs⟩
  rw [← trunc16_trueShift, ← hi16_trueShift]
  exact execWriting_narrows hs ha _

/-- Settles O26: the floor of the division by a power of two is the shift, and `ov` gets the constant 0. -/
theorem shrGivesTheShiftedWord : Obligations.ShrGivesTheShiftedWord := by
  intro a b s hs r dst count
  refine ⟨fun ha => ?_, exec_literal_faults rfl rfl hs⟩
  rw [← shiftedRight_eq]
  exact execWriting_sets_ov hs ha shiftedRight ovShr

/-- Settles O27: each of the three stores its bitwise operation on the two words, whose bits are as the rule says. -/
theorem bitwiseInstructionsActBitByBit : Obligations.BitwiseInstructionsActBitByBit := by
  intro a b s hs r dst src
  refine ⟨fun ha => ⟨⟨dst &&& src, ?_, fun _ => BitVec.getLsbD_and⟩, ⟨dst ||| src, ?_, fun _ => BitVec.getLsbD_or⟩,
    ⟨dst ^^^ src, ?_, fun _ => BitVec.getLsbD_xor⟩⟩, fun ha i hi => ?_⟩
  · exact execWriting_only_stores hs ha (· &&& ·)
  · exact execWriting_only_stores hs ha (· ||| ·)
  · exact execWriting_only_stores hs ha (· ^^^ ·)
  · simp only [List.mem_cons, List.not_mem_nil, or_false] at hi
    rcases hi with rfl | rfl | rfl
    · exact exec_literal_faults rfl rfl hs ha
    · exact exec_literal_faults rfl rfl hs ha
    · exact exec_literal_faults rfl rfl hs ha

/-- Settles O17: code 0x1F is that of the next-word operand, and SET's write to the word at `pc` reads back. -/
theorem nextWordDestinationIsReplacedInMemory : Obligations.NextWordDestinationIsReplacedInMemory := by
  intro b s hwf hs
  refine ⟨resolve_code .next s, _, (setCopiesTheSource .next b s hs).1 rfl, ?_⟩
  refine State.locRead_locWrite_same (l := .mem s.pc) _ _ ?_ rfl
  rw [resolveBoth_state]
  exact hwf

end Sys2Proof.Machine

/-! ## Conditions

When each conditional arms the skip (spec/43_conditional_skip.md R141 to R144). -/

namespace Sys2Proof.Machine

/-! ### The conditions on words -/

/-- Two words have no set bit in common exactly if their conjunction is 0. -/
theorem and_eq_zero_iff_no_common_bit (d v : Word) :
    d &&& v = 0 ↔ ∀ k, ¬(d.getLsbD k = true ∧ v.getLsbD k = true) := by
  constructor
  · intro h k hk
    have hbit : (d &&& v).getLsbD k = true := by simpa using hk
    simp [h] at hbit
  · intro h
    apply BitVec.eq_of_getLsbD_eq
    intro k _
    simpa using h k

/-! ### The statements -/

/-- Settles O28: the flag gets the negated condition, and each negation says what the rule says. -/
theorem ifeIfnIfbArmTheSkip : Obligations.IfeIfnIfbArmTheSkip := by
  intro a b s hs r dst src
  rw [exec_ife, exec_ifn, exec_ifb]
  refine ⟨⟨_, execConditional_arms hs, ?_⟩, ⟨_, execConditional_arms hs, ?_⟩, ⟨_, execConditional_arms hs, ?_⟩⟩
  · simp [dst, src, r]
  · simp [dst, src, r]
  · rw [← and_eq_zero_iff_no_common_bit]
    simp [dst, src, r]

/-- Settles O29: the flag gets the negation of the unsigned `src < dst`. -/
theorem ifgComparesUnsigned : Obligations.IfgComparesUnsigned := by
  intro a b s hs r
  rw [exec_ifg]
  refine ⟨_, execConditional_arms hs, ?_⟩
  simp [BitVec.ult, r]

end Sys2Proof.Machine

/-! ## The call

JSR's whole effect (spec/44_extended_jsr.md R151). -/

namespace Sys2Proof.Machine

/-- Settles O32: the call is the resolved state with a push and a jump; the words it does not push to are those of `s`. -/
theorem jsrPushesTheReturnAddressAndJumps : Obligations.JsrPushesTheReturnAddressAndJumps := by
  intro b s hwf hs r
  have he := exec_jsr_pushes s b hs
  obtain ⟨htop, hsp⟩ := exec_jsr_top hwf hs he
  refine ⟨_, he, exec_jsr_pc hs he, ?_, htop, fun k hk => ?_, rfl, rfl, hs, rfl, rfl⟩
  · rw [← hsp, BitVec.add_sub_cancel]
  · exact (s.resolved (.jsr b)).push_readMem_other _ hk

end Sys2Proof.Machine

/-! ## Reset and load

What a reset and a load leave (spec/70_reset_and_hazards.md R180, R181). -/

namespace Sys2Proof.Machine

/-- A load answers the reset state with the stream's image, and answers one only if the stream fits (D17). -/
theorem State.load_eq_some_iff (cfg : Config) (p : ResetParams) (stream : List Word) (s : State) :
    State.load cfg p stream = some s ↔
      stream.length ≤ wordCount ∧ s = { State.resetWith cfg p with mem := Memory.ofWords 0 stream } := by
  simp [State.load, eq_comm]

theorem State.load_eq_none_iff (cfg : Config) (p : ResetParams) (stream : List Word) :
    State.load cfg p stream = none ↔ wordCount < stream.length := by
  simp [State.load]

/-- Settles O13: a load leaves the parameters' values in every field but memory, and the reset's own are zeros. -/
theorem resetTakesTheDecidedValues : Obligations.ResetTakesTheDecidedValues := by
  refine ⟨fun cfg p stream => ⟨State.load_eq_none_iff cfg p stream, fun s h => ?_⟩, by decide, rfl, rfl, rfl⟩
  obtain ⟨-, rfl⟩ := (State.load_eq_some_iff cfg p stream s).mp h
  exact ⟨rfl, rfl, rfl, rfl, rfl⟩

/-- Settles O14: a reset and a loaded machine run, so only the canonical form is left, which an image of a stream has. -/
theorem resetAndLoadMeetInv : Obligations.ResetAndLoadMeetInv := by
  refine ⟨⟨State.resetWith_wf _ _, fun h => by cases h⟩, fun cfg p stream s h => ?_⟩
  obtain ⟨hlen, rfl⟩ := (State.load_eq_some_iff cfg p stream s).mp h
  exact ⟨Memory.wf_ofWords stream hlen, fun hrun => by cases hrun⟩

end Sys2Proof.Machine
